-- ==== Sys2Proof/Word.lean ====
section
/-! DEFINITION. The machine's word and byte types (00_scope.md R6, R7; 20_memory.md R50).
Arithmetic on them is `BitVec` arithmetic: addition wraps modulo 65,536, `~~~` and `&&&` are bitwise. -/

namespace Sys2Proof

/-- A register value, an address, an instruction or a memory word: 16 bits (R5 `XLEN`, `ALEN`; R7). -/
abbrev Word := BitVec 16

/-- Half a word: a cell of the memory's list, and what a console character is held in. How many of its bits a character
has is the parameter `Config.charBits` (R5 `CHAR_BITS`; decision D8). -/
abbrev Byte := BitVec 8

end Sys2Proof
end

