-- ==== Sys2Proof/Syntax.lean ====
section
/-! DEFINITION. The instructions: one constructor for every row of spec/opcode_table.json (nineteen forms and the six
trap rows). Fields keep the raw width of the encoding; extension happens in the machine (00_scope.md R15). -/

namespace Sys2Proof

/-- The general registers R0 to R7 (10_state.md R30). -/
inductive Reg where
  | R0 | R1 | R2 | R3 | R4 | R5 | R6 | R7
deriving DecidableEq, Repr, Inhabited

/-- The sixteen operations that `w[15:12]` selects (30_encoding.md R89). Their numbers are in Decode.lean. -/
inductive Opcode where
  | br | add | ld | st | jsr | and | ldr | str | rti | not | ldi | sti | jmp | reserved | lea | trap
deriving DecidableEq, Repr, Inhabited

/-- An instruction. The ignored bits of a form (30_encoding.md R91) are no part of it. -/
inductive Instr where
  /-- BR: branch when a requested flag matches `cond` (R120) -/
  | br (n z p : Bool) (off : BitVec 9)
  /-- ADD, register mode (R100) -/
  | addReg (dr sr1 sr2 : Reg)
  /-- ADD, immediate mode (R101) -/
  | addImm (dr sr1 : Reg) (imm : BitVec 5)
  /-- LD: PC-relative load (R140) -/
  | ld (dr : Reg) (off : BitVec 9)
  /-- ST: PC-relative store (R144) -/
  | st (sr : Reg) (off : BitVec 9)
  /-- JSR: call, PC-relative (R122) -/
  | jsr (off : BitVec 11)
  /-- JSRR: call through a register (R123) -/
  | jsrr (base : Reg)
  /-- AND, register mode (R102) -/
  | andReg (dr sr1 sr2 : Reg)
  /-- AND, immediate mode (R103) -/
  | andImm (dr sr1 : Reg) (imm : BitVec 5)
  /-- LDR: base plus offset load (R142) -/
  | ldr (dr base : Reg) (off : BitVec 6)
  /-- STR: base plus offset store (R146) -/
  | str (sr base : Reg) (off : BitVec 6)
  /-- RTI: recognised, a no-op (R179) -/
  | rti
  /-- NOT: bitwise complement (R104) -/
  | not (dr sr : Reg)
  /-- LDI: indirect load (R141) -/
  | ldi (dr : Reg) (off : BitVec 9)
  /-- STI: indirect store (R145) -/
  | sti (sr : Reg) (off : BitVec 9)
  /-- JMP: jump through a register; RET is JMP R7 (R121) -/
  | jmp (base : Reg)
  /-- RESERVED: recognised, a no-op (R180) -/
  | reserved
  /-- LEA: load effective address (R143) -/
  | lea (dr : Reg) (off : BitVec 9)
  /-- TRAP with its vector (R170). A word whose vector is 0x20 to 0x25 decodes to the routine's own constructor below. -/
  | trap (vect : BitVec 8)
  /-- GETC: TRAP 0x20 (R172) -/
  | getc
  /-- OUT: TRAP 0x21 (R173) -/
  | out
  /-- PUTS: TRAP 0x22 (R174) -/
  | puts
  /-- IN: TRAP 0x23 (R175); `in` is a word of Lean's own -/
  | inp
  /-- PUTSP: TRAP 0x24 (R176) -/
  | putsp
  /-- HALT: TRAP 0x25 (R177) -/
  | halt
deriving DecidableEq, Repr, Inhabited

/-- The operation an instruction belongs to (R89, R90). -/
def Instr.opcode : Instr → Opcode
  | .br .. => .br
  | .addReg .. => .add
  | .addImm .. => .add
  | .ld .. => .ld
  | .st .. => .st
  | .jsr .. => .jsr
  | .jsrr .. => .jsr
  | .andReg .. => .and
  | .andImm .. => .and
  | .ldr .. => .ldr
  | .str .. => .str
  | .rti => .rti
  | .not .. => .not
  | .ldi .. => .ldi
  | .sti .. => .sti
  | .jmp .. => .jmp
  | .reserved => .reserved
  | .lea .. => .lea
  | .trap .. => .trap
  | .getc => .trap
  | .out => .trap
  | .puts => .trap
  | .inp => .trap
  | .putsp => .trap
  | .halt => .trap

end Sys2Proof
end

