-- ==== Sys2Proof/WellFormed.lean ====
section
/-! DEFINITION. Which terms of `Instr` the decoder can produce. Every register and field is well-formed by its type;
the one check is that a TRAP whose vector selects one of the six routines is written with that routine's constructor
(43_trap.md R170), so that each word has one reading. -/

namespace Sys2Proof

/-- The vectors that select a trap routine: 0x20 to 0x25 (43_trap.md R170). -/
def isRoutineVector (v : BitVec 8) : Bool := 0x20 ≤ v.toNat && v.toNat ≤ 0x25

/-- An instruction is well-formed when it is not a plain `trap` with a routine's vector. -/
def Instr.wellFormed : Instr → Bool
  | .trap v => !isRoutineVector v
  | .br .. => true
  | .addReg .. => true
  | .addImm .. => true
  | .ld .. => true
  | .st .. => true
  | .jsr .. => true
  | .jsrr .. => true
  | .andReg .. => true
  | .andImm .. => true
  | .ldr .. => true
  | .str .. => true
  | .rti => true
  | .not .. => true
  | .ldi .. => true
  | .sti .. => true
  | .jmp .. => true
  | .reserved => true
  | .lea .. => true
  | .getc => true
  | .out => true
  | .puts => true
  | .inp => true
  | .putsp => true
  | .halt => true

end Sys2Proof
end

