-- ==== Sys2Proof/Decode.lean ====
section
/-! DEFINITION. Decoding a 16-bit word and encoding an instruction, both from the tables of 30_encoding.md.
Decoding is total and never rejects (R90, R92): the sixteen opcode values are the whole of `w[15:12]`, and ignored bits
are not looked at (R91). -/

namespace Sys2Proof

/-- The opcode numbers: entry k is the operation whose `w[15:12]` is k (R89; decision D1). The decoder and the encoder
both read this one table. -/
def opcodeTable : List Opcode :=
  [.br, .add, .ld, .st, .jsr, .and, .ldr, .str, .rti, .not, .ldi, .sti, .jmp, .reserved, .lea, .trap]

/-- The operation a 4-bit opcode names. The table has an entry for every value, so the default is never taken (R90). -/
def opcodeAt (b : BitVec 4) : Opcode := opcodeTable.getD b.toNat .reserved

/-- The 4-bit opcode of an operation. -/
def opcodeBits (o : Opcode) : BitVec 4 := BitVec.ofNat 4 (opcodeTable.idxOf o)

/-- The register a 3-bit field names (R83). -/
def regAt (b : BitVec 3) : Reg :=
  match b.toNat with
  | 0 => .R0
  | 1 => .R1
  | 2 => .R2
  | 3 => .R3
  | 4 => .R4
  | 5 => .R5
  | 6 => .R6
  | _ => .R7

/-- The 3-bit field that names a register (R83). -/
def regBits : Reg → BitVec 3
  | .R0 => 0#3
  | .R1 => 1#3
  | .R2 => 2#3
  | .R3 => 3#3
  | .R4 => 4#3
  | .R5 => 5#3
  | .R6 => 6#3
  | .R7 => 7#3

/-- `w[lo+width-1 : lo]` (00_scope.md R6). -/
def field (w : Word) (lo width : Nat) : BitVec width := w.extractLsb' lo width

/-- `w[i]` (00_scope.md R6). -/
def bit (w : Word) (i : Nat) : Bool := w.getLsbD i

/-- DR, or the source SR of a store: `w[11:9]` (R83). -/
def fieldDR (w : Word) : Reg := regAt (field w 9 3)

/-- SR1, SR or BaseR: `w[8:6]` (R83). -/
def fieldSR1 (w : Word) : Reg := regAt (field w 6 3)

/-- SR2: `w[2:0]` (R83). -/
def fieldSR2 (w : Word) : Reg := regAt (field w 0 3)

/-- The instruction a TRAP with this vector is (43_trap.md R170). -/
def trapInstr (v : BitVec 8) : Instr :=
  match v.toNat with
  | 0x20 => .getc
  | 0x21 => .out
  | 0x22 => .puts
  | 0x23 => .inp
  | 0x24 => .putsp
  | 0x25 => .halt
  | _ => .trap v

/-- The instruction a word is (R90), with the fields of R83 to R88. -/
def decode (w : Word) : Instr :=
  match opcodeAt (field w 12 4) with
  | .br => .br (bit w 11) (bit w 10) (bit w 9) (field w 0 9)
  | .add => if bit w 5 then .addImm (fieldDR w) (fieldSR1 w) (field w 0 5)
            else .addReg (fieldDR w) (fieldSR1 w) (fieldSR2 w)
  | .ld => .ld (fieldDR w) (field w 0 9)
  | .st => .st (fieldDR w) (field w 0 9)
  | .jsr => if bit w 11 then .jsr (field w 0 11) else .jsrr (fieldSR1 w)
  | .and => if bit w 5 then .andImm (fieldDR w) (fieldSR1 w) (field w 0 5)
            else .andReg (fieldDR w) (fieldSR1 w) (fieldSR2 w)
  | .ldr => .ldr (fieldDR w) (fieldSR1 w) (field w 0 6)
  | .str => .str (fieldDR w) (fieldSR1 w) (field w 0 6)
  | .rti => .rti
  | .not => .not (fieldDR w) (fieldSR1 w)
  | .ldi => .ldi (fieldDR w) (field w 0 9)
  | .sti => .sti (fieldDR w) (field w 0 9)
  | .jmp => .jmp (fieldSR1 w)
  | .reserved => .reserved
  | .lea => .lea (fieldDR w) (field w 0 9)
  | .trap => trapInstr (field w 0 8)

/-- What the decoder reads from the low `nbits` bits of `w`, numbered as spec/opcode_table.json numbers them. Every
instruction is one 16-bit word (R81), so a longer row is no instruction of this machine. -/
def decodeTableWord (nbits w : Nat) : Option Instr :=
  if nbits ≤ 16 then some (decode (BitVec.ofNat 16 (w % 2 ^ nbits))) else none

/-! ## The encoder
Canonical values of the ignored bits are those of the formats table (30_encoding.md section 4; decision D23). -/

/-- Opcode, register, 9-bit offset: the layout of LD, ST, LDI, STI and LEA. -/
def encodeOff9 (o : Opcode) (r : Reg) (off : BitVec 9) : Word := opcodeBits o ++ regBits r ++ off

/-- Opcode, register, register, 6-bit low field: the layout of LDR, STR and NOT. -/
def encodeLow6 (o : Opcode) (r1 r2 : Reg) (low : BitVec 6) : Word := opcodeBits o ++ regBits r1 ++ regBits r2 ++ low

/-- ADD and AND in register mode: mode bit 0, bits 4:3 zero. -/
def encodeOpReg (o : Opcode) (dr sr1 sr2 : Reg) : Word :=
  opcodeBits o ++ regBits dr ++ regBits sr1 ++ 0#1 ++ 0#2 ++ regBits sr2

/-- ADD and AND in immediate mode: mode bit 1. -/
def encodeOpImm (o : Opcode) (dr sr1 : Reg) (imm : BitVec 5) : Word :=
  opcodeBits o ++ regBits dr ++ regBits sr1 ++ 1#1 ++ imm

/-- A TRAP word: bits 11:8 zero. -/
def encodeTrap (v : BitVec 8) : Word := opcodeBits .trap ++ 0#4 ++ v

/-- The canonical word of an instruction (30_encoding.md section 4). -/
def encode : Instr → Word
  | .br n z p off => opcodeBits .br ++ BitVec.ofBool n ++ BitVec.ofBool z ++ BitVec.ofBool p ++ off
  | .addReg dr sr1 sr2 => encodeOpReg .add dr sr1 sr2
  | .addImm dr sr1 imm => encodeOpImm .add dr sr1 imm
  | .ld dr off => encodeOff9 .ld dr off
  | .st sr off => encodeOff9 .st sr off
  | .jsr off => opcodeBits .jsr ++ 1#1 ++ off
  | .jsrr base => opcodeBits .jsr ++ 0#1 ++ 0#2 ++ regBits base ++ 0#6
  | .andReg dr sr1 sr2 => encodeOpReg .and dr sr1 sr2
  | .andImm dr sr1 imm => encodeOpImm .and dr sr1 imm
  | .ldr dr base off => encodeLow6 .ldr dr base off
  | .str sr base off => encodeLow6 .str sr base off
  | .rti => opcodeBits .rti ++ 0#12
  | .not dr sr => encodeLow6 .not dr sr 0b111111#6
  | .ldi dr off => encodeOff9 .ldi dr off
  | .sti sr off => encodeOff9 .sti sr off
  | .jmp base => opcodeBits .jmp ++ 0#3 ++ regBits base ++ 0#6
  | .reserved => opcodeBits .reserved ++ 0#12
  | .lea dr off => encodeOff9 .lea dr off
  | .trap v => encodeTrap v
  | .getc => encodeTrap 0x20#8
  | .out => encodeTrap 0x21#8
  | .puts => encodeTrap 0x22#8
  | .inp => encodeTrap 0x23#8
  | .putsp => encodeTrap 0x24#8
  | .halt => encodeTrap 0x25#8

/-- The bits a form fixes, as (mask, match): the two columns of spec/opcode_table.json. -/
def Instr.pattern : Instr → Word × Word
  | .br .. => (0xF000#16, 0x0000#16)
  | .addReg .. => (0xF020#16, 0x1000#16)
  | .addImm .. => (0xF020#16, 0x1020#16)
  | .ld .. => (0xF000#16, 0x2000#16)
  | .st .. => (0xF000#16, 0x3000#16)
  | .jsr .. => (0xF800#16, 0x4800#16)
  | .jsrr .. => (0xF800#16, 0x4000#16)
  | .andReg .. => (0xF020#16, 0x5000#16)
  | .andImm .. => (0xF020#16, 0x5020#16)
  | .ldr .. => (0xF000#16, 0x6000#16)
  | .str .. => (0xF000#16, 0x7000#16)
  | .rti => (0xF000#16, 0x8000#16)
  | .not .. => (0xF000#16, 0x9000#16)
  | .ldi .. => (0xF000#16, 0xA000#16)
  | .sti .. => (0xF000#16, 0xB000#16)
  | .jmp .. => (0xF000#16, 0xC000#16)
  | .reserved => (0xF000#16, 0xD000#16)
  | .lea .. => (0xF000#16, 0xE000#16)
  | .trap .. => (0xF000#16, 0xF000#16)
  | .getc => (0xF0FF#16, 0xF020#16)
  | .out => (0xF0FF#16, 0xF021#16)
  | .puts => (0xF0FF#16, 0xF022#16)
  | .inp => (0xF0FF#16, 0xF023#16)
  | .putsp => (0xF0FF#16, 0xF024#16)
  | .halt => (0xF0FF#16, 0xF025#16)

/-- The bits a form's decoder reads; the rest are the `x` bits of the formats table (R91). -/
def Instr.readMask : Instr → Word
  | .addReg .. => 0xFFE7#16
  | .andReg .. => 0xFFE7#16
  | .not .. => 0xFFC0#16
  | .jmp .. => 0xF1C0#16
  | .jsrr .. => 0xF9C0#16
  | .trap .. => 0xF0FF#16
  | .getc => 0xF0FF#16
  | .out => 0xF0FF#16
  | .puts => 0xF0FF#16
  | .inp => 0xF0FF#16
  | .putsp => 0xF0FF#16
  | .halt => 0xF0FF#16
  | .rti => 0xF000#16
  | .reserved => 0xF000#16
  | .br .. => 0xFFFF#16
  | .addImm .. => 0xFFFF#16
  | .ld .. => 0xFFFF#16
  | .st .. => 0xFFFF#16
  | .jsr .. => 0xFFFF#16
  | .andImm .. => 0xFFFF#16
  | .ldr .. => 0xFFFF#16
  | .str .. => 0xFFFF#16
  | .ldi .. => 0xFFFF#16
  | .sti .. => 0xFFFF#16
  | .lea .. => 0xFFFF#16

end Sys2Proof
end

