-- ==== Sys2Proof/Machine/Types.lean ====
section
/-! DEFINITION. The fixed sets of names the machine's state is made of: the condition register's values, the fatal
codes, and what the console capability can answer. -/

namespace Sys2Proof.Machine

/-- The condition register's values (10_state.md R33). It lives only inside the machine: no instruction reads it as a
number (R34), so it is a set of names; `Cond.bits` in Flags.lean gives the hardware layout. -/
inductive Cond where
  /-- NONE: no flag set, before the first flag-affecting instruction -/
  | none
  /-- POS: the last result was neither zero nor had bit 15 set -/
  | pos
  /-- ZERO: the last result was 0x0000 -/
  | zero
  /-- NEG: the last result had bit 15 set -/
  | neg
deriving DecidableEq, Repr, Inhabited

/-- The fatal codes of 60_exceptions.md R201; "no code" is the `none` of `Option FatalCode`. -/
inductive FatalCode where
  /-- code 1: `ConsPoll` answered `Fail` during a `MemRead` of KBSR_ADDR -/
  | kbdPollFail
  /-- code 2: `ConsGetc` answered `Fail`, end of input included -/
  | consReadFail
  /-- code 3: `ConsPutc` or `ConsFlush` answered `Fail` -/
  | consWriteFail
  /-- code 4: an image is missing, unreadable or shorter than 2 bytes; raised by the host's load only -/
  | loadFail
deriving DecidableEq, Repr, Inhabited

/-- What `ConsPoll()` answers (00_scope.md R13). -/
inductive PollAnswer where
  | noKey
  /-- a pending key, consumed from the input by the poll that reports it (decision D10) -/
  | key (b : Byte)
  | fail
deriving DecidableEq, Repr, Inhabited

/-- What `ConsGetc()` answers (00_scope.md R13), with the third possibility 43_trap.md R181 leaves open: a blocking
read need never answer. -/
inductive GetcAnswer where
  | char (b : Byte)
  | fail
  /-- the console never answers this read: the step does not complete (R172, 93_implementation_defined.md I4) -/
  | never
deriving DecidableEq, Repr, Inhabited

/-- What `ConsPutc` and `ConsFlush` answer (00_scope.md R13). -/
inductive Ack where
  | ok
  | fail
deriving DecidableEq, Repr, Inhabited

end Sys2Proof.Machine
end

