-- ==== Sys2Proof/Config.lean ====
section
/-! DEFINITION. The core's parameters (00_scope.md R5), each a named field with the value the spec gives as its
default, and the free values: constants without a body, of which nothing can be proved.
The widths `XLEN`, `ALEN`, `OPCODE_BITS`, `TRAPVECT_BITS` and `NREGS`, which the document states, are fixed in the types
(`Word`, `Byte`, `BitVec 4`, `BitVec 8`, `Reg`). `Machine/Params.lean` holds the one configuration the model runs with. -/

namespace Sys2Proof

/-- FREE VALUE. The answer of the n-th `ConsPoll` that the state's own list of coming answers does not give
(93_implementation_defined.md I3: "any value"). Log entry 5. -/
opaque Config.freePoll : Nat → Machine.PollAnswer

/-- FREE VALUE. The answer of the n-th `ConsGetc` that the state's own list of coming answers does not give
(93_implementation_defined.md I4: "any value"). Log entry 5. -/
opaque Config.freeGetc : Nat → Machine.GetcAnswer

/-- FREE VALUE. The prompt bytes of the IN trap: the parameter IN_PROMPT, which R5 leaves OPEN (decision D13).
Log entry 7. -/
opaque Config.freePrompt : List Byte

/-- The core's parameters (R5). -/
structure Config where
  /-- PC_START, the start address -/
  pcStart : Word := 0x3000#16
  /-- KBSR_ADDR, the keyboard-status address (decision D2) -/
  kbsrAddr : Word := 0xFE00#16
  /-- KBDR_ADDR, the keyboard-data address (decision D2) -/
  kbdrAddr : Word := 0xFE02#16
  /-- COND_RESET, the condition register at reset (decision D3) -/
  condReset : Machine.Cond := .none
  /-- CHAR_BITS, the width of a console character (decision D8): at most 8, since a character is one half of a word in
  PUTSP. The machine reads and writes characters through `charBits` only (`zextChar`, `charOf` in Machine/Ops.lean) -/
  charBits : Nat := 8
  /-- IN_PROMPT, the bytes printed by the IN trap: OPEN -/
  inPrompt : List Byte := Config.freePrompt
  /-- TRAP_STRING_READ_POLLS, whether PUTS and PUTSP read through `MemRead` (decision D11) -/
  trapStringReadPolls : Bool := false

end Sys2Proof
end

