-- ==== Sys2Proof/Machine/Params.lean ====
section
/-! DEFINITION. The one configuration this model runs with: every parameter at the value 00_scope.md R5 gives. -/

namespace Sys2Proof.Machine

/-- The parameters at their R5 values. KBSR_ADDR and KBDR_ADDR must stay distinct (20_memory.md R59). -/
def config : Config := {}

/-- MEM_WORDS: how many words the memory holds (R5, 20_memory.md R50). -/
def memWords : Nat := 65536

end Sys2Proof.Machine
end

