-- ==== Sys2Proof/Machine/Memory.lean ====
section
/-! DEFINITION. The memory: 65,536 words of 16 bits (20_memory.md R50), held as a list of byte cells in one canonical
form. The machine has no byte addressing (R52): a cell's number is no address of the machine. The word at address a is
kept as two cells, number 2a its high byte and number 2a+1 its low byte, and only `readWord` and `writeWord` are used
by the machine, so that order is never observable (log entry 2). -/

namespace Sys2Proof.Machine

/-- The memory's contents: (cell number, byte) pairs in the canonical form `Memory.wf`. -/
abbrev Memory := List Host.Cell

/-- What a cell that is not listed holds: memory is created zero-initialized (R51). -/
def Memory.unlistedByte : Byte := 0#8

/-- The canonical form: cell numbers strictly rising, none past the last word, and no listed cell that holds what an
unlisted one does. Equal memories are then equal lists. -/
abbrev Memory.wf (m : Memory) : Prop :=
  m.Pairwise (fun c d => c.1 < d.1) ∧ ∀ c ∈ m, c.1 < 2 * memWords ∧ c.2 ≠ Memory.unlistedByte

/-- The byte in cell `k`. -/
def Memory.readByte : Memory → Nat → Byte
  | [], _ => Memory.unlistedByte
  | (k', b') :: rest, k => if k' = k then b' else Memory.readByte rest k

/-- `rest` with cell `k` in front, unless `b` is what an unlisted cell holds. -/
def Memory.consCell (k : Nat) (b : Byte) (rest : Memory) : Memory :=
  if b = Memory.unlistedByte then rest else (k, b) :: rest

/-- `m`, which does not list cell `k`, with `b` in that cell, at its place in the rising order. -/
def Memory.insertCell : Memory → Nat → Byte → Memory
  | [], k, b => Memory.consCell k b []
  | c :: rest, k, b => if c.1 < k then c :: Memory.insertCell rest k b else Memory.consCell k b (c :: rest)

/-- The memory without cell `k`. -/
def Memory.dropCell (m : Memory) (k : Nat) : Memory := m.filter fun c => c.1 ≠ k

/-- The memory with `b` in cell `k`, in canonical form again. -/
def Memory.writeByte (m : Memory) (k : Nat) (b : Byte) : Memory := (m.dropCell k).insertCell k b

/-- Bits 15:8 of a word. -/
def hiByte (w : Word) : Byte := w.extractLsb' 8 8

/-- Bits 7:0 of a word. -/
def loByte (w : Word) : Byte := w.extractLsb' 0 8

/-- The cell that holds the high byte of the word at `a`. -/
def hiCell (a : Word) : Nat := 2 * a.toNat

/-- The cell that holds the low byte of the word at `a`. -/
def loCell (a : Word) : Nat := 2 * a.toNat + 1

/-- `mem[a]` (R50). -/
def Memory.readWord (m : Memory) (a : Word) : Word := m.readByte (hiCell a) ++ m.readByte (loCell a)

/-- `mem[a] <- v` (R54). -/
def Memory.writeWord (m : Memory) (a v : Word) : Memory :=
  (m.writeByte (hiCell a) (hiByte v)).writeByte (loCell a) (loByte v)

end Sys2Proof.Machine
end

