-- ==== Sys2Proof/Machine/State.lean ====
section
/-! DEFINITION. The machine's state (10_state.md R43), what can stop a step, and the state after reset.
The last five fields of `State` are the model's own: they hold what the console capability will answer, which the core
does not decide (00_scope.md R13, 10_state.md R42). -/

namespace Sys2Proof.Machine

/-- The register file: eight 16-bit registers (10_state.md R30). -/
structure RegFile where
  r0 : Word
  r1 : Word
  r2 : Word
  r3 : Word
  r4 : Word
  r5 : Word
  r6 : Word
  r7 : Word
deriving DecidableEq, Repr

/-- The state of the machine. -/
structure State where
  /-- R0 to R7 (R30) -/
  regs : RegFile
  /-- the program counter (R36) -/
  pc : Word
  /-- the condition register (R33) -/
  cond : Cond
  /-- the Running state (R39) -/
  running : Bool
  /-- the fatal status (R40) -/
  fatal : Option FatalCode
  /-- the 65,536 words (20_memory.md R50) -/
  mem : Memory
  /-- the characters passed to `ConsPutc`, whatever it answered, oldest first (R42, log entry 23) -/
  out : List Byte
  /-- the level of the `rst` port: `true` while the host asserts it (00_scope.md R17, 70_reset_and_hazards.md R240) -/
  rst : Bool
  /-- what the coming calls of `ConsPoll` answer, next one first (log entry 5) -/
  polls : List PollAnswer
  /-- how many answers of `Config.freePoll` have been drawn (log entry 5) -/
  pollDraws : Nat
  /-- what the coming calls of `ConsGetc` answer, next one first (log entry 5) -/
  getcs : List GetcAnswer
  /-- how many answers of `Config.freeGetc` have been drawn (log entry 5) -/
  getcDraws : Nat
  /-- which coming calls of `ConsPutc` and `ConsFlush`, counted together, answer `Fail`: the numbers of `Ok` answers
  before each failure, next one first; past the last, every answer is `Ok` (log entry 6) -/
  outputFails : List Nat
deriving DecidableEq, Repr

/-- Why the machine stands: no step exists, or a step that never completes. All are safe. -/
inductive Fault where
  /-- raised by `step`: `rst` is asserted, so the core takes no step (R240); safe -/
  | heldInReset
  /-- raised by `step`: Running is false, so no step exists (30_encoding.md R80, 60_exceptions.md R212); safe -/
  | halted
  /-- raised by `step`: the fatal status holds this code, so no step exists (R80, R212); safe -/
  | stoppedByFatal (code : FatalCode)
  /-- raised by GETC and IN: the console never answers the blocking read, so the step never completes
  (43_trap.md R172, R181); safe -/
  | readNeverAnswers
  /-- raised by PUTS and PUTSP: no zero word ends the string, so the step never completes (R174, R176); safe -/
  | stringNeverEnds
deriving DecidableEq, Repr

/-- Why the model has no meaning for an instruction. No arm of `exec` uses it. -/
inductive Refusal where
  /-- raised by an arm of `exec` whose instruction is not modelled, none in this model; safe -/
  | notModelled (mnemonic : String)
deriving DecidableEq, Repr

/-- What a meaning answers. -/
abbrev Result := Host.Outcome State Fault Refusal

/-- An operation in progress inside a step: it completed with a value, or raised a fatal condition (the state then
carries the code), or never completes. -/
inductive Attempt (α : Type) where
  | done (a : α) (s : State)
  | raised (s : State)
  | stuck (f : Fault)
deriving Repr

/-- Every register at 0x0000 (R32). -/
def RegFile.reset : RegFile := ⟨0#16, 0#16, 0#16, 0#16, 0#16, 0#16, 0#16, 0#16⟩

/-- The machine right after reset, with nothing loaded (R43, R240). The console fields are the model's own; their values
are a DESIGN CHOICE (log entries 5 and 6). -/
def State.reset : State where
  regs := RegFile.reset
  pc := config.pcStart
  cond := config.condReset
  running := true
  fatal := none
  mem := []
  out := []
  rst := false
  polls := []
  pollDraws := 0
  getcs := []
  getcDraws := 0
  outputFails := []

end Sys2Proof.Machine
end

