-- ==== Sys2Proof/Machine/Ops.lean ====
section
/-! DEFINITION. The named operations every meaning is made of: register and memory access, the console primitives,
raising a fatal condition, sequencing, and the fetch. -/

namespace Sys2Proof.Machine

/-! ## Registers and plain updates -/

/-- The register a name selects (10_state.md R30). -/
def RegFile.get (f : RegFile) : Reg → Word
  | .R0 => f.r0
  | .R1 => f.r1
  | .R2 => f.r2
  | .R3 => f.r3
  | .R4 => f.r4
  | .R5 => f.r5
  | .R6 => f.r6
  | .R7 => f.r7

/-- The register file after a write. No register is hardwired (R30). -/
def RegFile.set (f : RegFile) (r : Reg) (v : Word) : RegFile :=
  match r with
  | .R0 => { f with r0 := v }
  | .R1 => { f with r1 := v }
  | .R2 => { f with r2 := v }
  | .R3 => { f with r3 := v }
  | .R4 => { f with r4 := v }
  | .R5 => { f with r5 := v }
  | .R6 => { f with r6 := v }
  | .R7 => { f with r7 := v }

/-- `x[r]` (00_scope.md R10). -/
def State.reg (s : State) (r : Reg) : Word := s.regs.get r

/-- `x[r] <- v` (R10). -/
def State.setReg (s : State) (r : Reg) (v : Word) : State := { s with regs := s.regs.set r v }

/-- `pc <- t` (R10). -/
def State.setPc (s : State) (t : Word) : State := { s with pc := t }

/-- `cond <- c`. -/
def State.setCond (s : State) (c : Cond) : State := { s with cond := c }

/-- The word stored at `a`, read with no side effect: `MemPeek(a)` (20_memory.md R57). -/
def State.word (s : State) (a : Word) : Word := s.mem.readWord a

/-- `MemWrite(a, 1, v)`: stores the word, with no other effect at any address (R54). -/
def State.setWord (s : State) (a v : Word) : State := { s with mem := s.mem.writeWord a v }

/-- The character joins the output stream (10_state.md R42). -/
def State.pushOut (s : State) (b : Byte) : State := { s with out := s.out ++ [b] }

/-- `running <- false` (43_trap.md R177). -/
def State.stopRunning (s : State) : State := { s with running := false }

/-- The fatal status takes a code; everything else stays as it stood (00_scope.md R14, 60_exceptions.md R214). -/
def State.setFatal (s : State) (c : FatalCode) : State := { s with fatal := some c }

/-! ## Taking an exception
The only exceptional outcome is `raise Fatal(code)` (60_exceptions.md R200). It saves nothing, has no handler and
transfers control nowhere: pc stays, the status takes the code, and no step follows. There is no return from it; RTI is
a no-op (R205), and only reset leaves the fatal state (R212). -/

/-- `raise Fatal(code)` (00_scope.md R14). -/
def raiseFatal {α : Type} (c : FatalCode) (s : State) : Attempt α := .raised (s.setFatal c)

/-! ## Sequencing inside a step -/

/-- First `r`, then `k`; nothing follows a fatal condition or an operation that never completes (60_exceptions.md R203). -/
def Attempt.andThen {α β : Type} (r : Attempt α) (k : α → State → Attempt β) : Attempt β :=
  match r with
  | .done a s => k a s
  | .raised s => .raised s
  | .stuck f => .stuck f

/-- First `r`, then the rest of the step. A fatal condition ends the step in the state that holds its code. -/
def Attempt.into {α : Type} (r : Attempt α) (k : α → State → Result) : Result :=
  match r with
  | .done a s => k a s
  | .raised s => .next s
  | .stuck f => .fault f

/-- A whole instruction's outcome. -/
def Attempt.finish (r : Attempt Unit) : Result := r.into fun _ s => .next s

/-! ## Characters (00_scope.md R5 `CHAR_BITS`, R9) -/

/-- The character in a byte: its low CHAR_BITS bits. With CHAR_BITS at its default, 8, the byte itself. -/
def charOf (b : Byte) : Byte := (b.setWidth config.charBits).setWidth 8

/-- `zext_N(b)` with N = CHAR_BITS: a character placed in a register or a memory word (R9). -/
def zextChar (b : Byte) : Word := (b.setWidth config.charBits).setWidth 16

/-! ## The console primitives (00_scope.md R13) -/

/-- `ConsPoll()`: the next listed answer, or a free one when none is listed. -/
def consPoll (s : State) : PollAnswer × State :=
  match s.polls with
  | a :: rest => (a, { s with polls := rest })
  | [] => (Config.freePoll s.pollDraws, { s with pollDraws := s.pollDraws + 1 })

/-- `ConsGetc()`: the next listed answer, or a free one when none is listed. -/
def consGetc (s : State) : GetcAnswer × State :=
  match s.getcs with
  | a :: rest => (a, { s with getcs := rest })
  | [] => (Config.freeGetc s.getcDraws, { s with getcDraws := s.getcDraws + 1 })

/-- The answer of the next `ConsPutc` or `ConsFlush`, by the list of coming failures. -/
def consAck (s : State) : Ack × State :=
  match s.outputFails with
  | [] => (.ok, s)
  | 0 :: rest => (.fail, { s with outputFails := rest })
  | (n + 1) :: rest => (.ok, { s with outputFails := n :: rest })

/-- `if ConsPutc(b) = Fail then raise Fatal(CONS_WRITE_FAIL)` (43_trap.md R173). The character joins `out` as it is passed,
whatever the answer (10_state.md R42, 43_trap.md R181; log entry 23). -/
def putc (b : Byte) (s : State) : Attempt Unit :=
  match consAck (s.pushOut (charOf b)) with
  | (.ok, s) => .done () s
  | (.fail, s) => raiseFatal .consWriteFail s

/-- `if ConsFlush() = Fail then raise Fatal(CONS_WRITE_FAIL)`; a flush changes nothing else (R181). -/
def flush (s : State) : Attempt Unit :=
  match consAck s with
  | (.ok, s) => .done () s
  | (.fail, s) => raiseFatal .consWriteFail s

/-- `ConsGetc()` with its failure raised (R172): the character read. -/
def readChar (s : State) : Attempt Byte :=
  match consGetc s with
  | (.char b, s) => .done b s
  | (.fail, s) => raiseFatal .consReadFail s
  | (.never, _) => .stuck .readNeverAnswers

/-! ## Memory reads -/

/-- The keyboard refresh of 20_memory.md R55: one poll, and KBSR (and KBDR) written by its answer. -/
def refreshKeyboard (s : State) : Attempt Unit :=
  match consPoll s with
  | (.fail, s) => raiseFatal .kbdPollFail s
  | (.key b, s) => .done () ((s.setWord config.kbsrAddr 0x8000#16).setWord config.kbdrAddr (zextChar b))
  | (.noKey, s) => .done () (s.setWord config.kbsrAddr 0x0000#16)

/-- `MemRead(a, 1)`: with the refresh at KBSR_ADDR (R55), plain everywhere else (R56). -/
def memRead (a : Word) (s : State) : Attempt Word :=
  if a = config.kbsrAddr then (refreshKeyboard s).andThen fun _ s => .done (s.word a) s
  else .done (s.word a) s

/-- `MemPeek(a)`: the stored word, no side effect at any address (R57). -/
def memPeek (a : Word) (s : State) : Attempt Word := .done (s.word a) s

/-! ## The fetch -/

/-- `w <- MemRead(pc, 1); pc <- pc + 1` (30_encoding.md R80). If the read raises, pc is not incremented. -/
def fetch (s : State) : Attempt Word :=
  (memRead s.pc s).andThen fun w s => .done w (s.setPc (s.pc + 1#16))

end Sys2Proof.Machine
end

