-- ==== Sys2Proof/Machine/Operands.lean ====
section
/-! DEFINITION. Operand forms: sign extension and the ways an address is formed (42_loadstore.md R147). -/

namespace Sys2Proof.Machine

/-- `sext_N(v)`: if bit N-1 is 1, all bits above it are set, otherwise they are 0 (00_scope.md R8). -/
def sext {n : Nat} (v : BitVec n) : Word :=
  if v.msb then (0xFFFF#16 <<< n) ||| v.zeroExtend 16 else v.zeroExtend 16

/-- `pc + sext_N(off)`, with pc the incremented pc (10_state.md R37), modulo 65,536. -/
def pcRel {n : Nat} (off : BitVec n) (s : State) : Word := s.pc + sext off

/-- `x[BaseR] + sext_6(off)`, modulo 65,536. -/
def basePlus (base : Reg) (off : BitVec 6) (s : State) : Word := s.reg base + sext off

end Sys2Proof.Machine
end

