-- ==== Sys2Proof/Machine/Flags.lean ====
section
/-! DEFINITION. The condition register's computation and test, and the hardware codes of the condition register and of
the fatal status. -/

namespace Sys2Proof.Machine

/-- The value `setcc(v)` gives `cond` (00_scope.md R12). -/
def condOf (v : Word) : Cond :=
  if v = 0x0000#16 then .zero else if v.getLsbD 15 then .neg else .pos

/-- `x[DR] <- v; setcc(v)`: how each of the seven flag-affecting instructions ends (10_state.md R35). -/
def writeResult (dr : Reg) (v : Word) (s : State) : State := (s.setReg dr v).setCond (condOf v)

/-- Whether a BR with these flag bits is taken (41_control.md R120). -/
def branchTaken (n z p : Bool) (c : Cond) : Bool :=
  (n && c = .neg) || (z && c = .zero) || (p && c = .pos)

/-- `cond[2:0]`, the bits N, Z, P (10_state.md R34). -/
def Cond.bits : Cond → BitVec 3
  | .none => 0b000#3
  | .neg => 0b100#3
  | .zero => 0b010#3
  | .pos => 0b001#3

/-- The 3-bit `fatal_code` (60_exceptions.md R201). -/
def fatalBits : Option FatalCode → BitVec 3
  | none => 0#3
  | some .kbdPollFail => 1#3
  | some .consReadFail => 2#3
  | some .consWriteFail => 3#3
  | some .loadFail => 4#3

/-- What the `status` port shows the host (00_scope.md R17): `running`, and the fatal code. -/
def State.status (s : State) : Bool × BitVec 3 := (s.running, fatalBits s.fatal)

end Sys2Proof.Machine
end

