-- ==== Sys2Proof/Machine/Control.lean ====
section
/-! DEFINITION. BR, JMP, JSR and JSRR (41_control.md). `s.pc` is the incremented pc. -/

namespace Sys2Proof.Machine

/-- BR: an untaken branch continues at the incremented pc (R120). -/
def execBr (n z p : Bool) (off : BitVec 9) (s : State) : Result :=
  .next (if branchTaken n z p s.cond then s.setPc (pcRel off s) else s)

/-- JMP (R121). -/
def execJmp (base : Reg) (s : State) : Result := .next (s.setPc (s.reg base))

/-- `x[7] <- pc`: the link JSR and JSRR write (R122, R123). -/
def link (s : State) : State := s.setReg .R7 s.pc

/-- JSR: link and target are computed from the same incremented pc (R122). -/
def execJsr (off : BitVec 11) (s : State) : Result := .next ((link s).setPc (pcRel off s))

/-- JSRR: BaseR is read after the link is written, so `JSRR R7` continues at the next word (R123; decision D25). -/
def execJsrr (base : Reg) (s : State) : Result := .next ((link s).setPc ((link s).reg base))

end Sys2Proof.Machine
end

