-- ==== Sys2Proof/Machine/LoadStore.lean ====
section
/-! DEFINITION. Loads, LEA and stores (42_loadstore.md). Loads and LEA set `cond`, stores do not; a store never polls. -/

namespace Sys2Proof.Machine

/-- LD (R140). -/
def execLd (dr : Reg) (off : BitVec 9) (s : State) : Result :=
  (memRead (pcRel off s) s).into fun v s => .next (writeResult dr v s)

/-- LDI: two reads, each with its own refresh when it is at KBSR_ADDR (R141). -/
def execLdi (dr : Reg) (off : BitVec 9) (s : State) : Result :=
  ((memRead (pcRel off s) s).andThen memRead).into fun v s => .next (writeResult dr v s)

/-- LDR: the base is read before DR is written (R142). -/
def execLdr (dr base : Reg) (off : BitVec 6) (s : State) : Result :=
  (memRead (basePlus base off s) s).into fun v s => .next (writeResult dr v s)

/-- LEA: no memory access; `cond` is set (R143). -/
def execLea (dr : Reg) (off : BitVec 9) (s : State) : Result := .next (writeResult dr (pcRel off s) s)

/-- ST (R144). -/
def execSt (sr : Reg) (off : BitVec 9) (s : State) : Result := .next (s.setWord (pcRel off s) (s.reg sr))

/-- STI: the pointer is read with the refresh of R55 (R145). -/
def execSti (sr : Reg) (off : BitVec 9) (s : State) : Result :=
  (memRead (pcRel off s) s).into fun q s => .next (s.setWord q (s.reg sr))

/-- STR (R146). -/
def execStr (sr base : Reg) (off : BitVec 6) (s : State) : Result := .next (s.setWord (basePlus base off s) (s.reg sr))

end Sys2Proof.Machine
end

