-- ==== Sys2Proof/Machine/Operate.lean ====
section
/-! DEFINITION. ADD, AND and NOT (40_operate.md). Sources are read before DR is written. -/

namespace Sys2Proof.Machine

/-- ADD, register mode (R100). -/
def execAddReg (dr sr1 sr2 : Reg) (s : State) : Result := .next (writeResult dr (s.reg sr1 + s.reg sr2) s)

/-- ADD, immediate mode (R101). -/
def execAddImm (dr sr1 : Reg) (imm : BitVec 5) (s : State) : Result := .next (writeResult dr (s.reg sr1 + sext imm) s)

/-- AND, register mode (R102). -/
def execAndReg (dr sr1 sr2 : Reg) (s : State) : Result := .next (writeResult dr (s.reg sr1 &&& s.reg sr2) s)

/-- AND, immediate mode: the immediate is sign-extended first (R103). -/
def execAndImm (dr sr1 : Reg) (imm : BitVec 5) (s : State) : Result := .next (writeResult dr (s.reg sr1 &&& sext imm) s)

/-- NOT (R104). -/
def execNot (dr sr : Reg) (s : State) : Result := .next (writeResult dr (~~~(s.reg sr)) s)

end Sys2Proof.Machine
end

