-- ==== Sys2Proof/Machine/Trap.lean ====
section
/-! DEFINITION. TRAP with its six console routines, and the no-ops RTI and RESERVED (43_trap.md). No routine writes pc,
`cond`, memory or any register but R0 (R171); the only memory change possible is the keyboard refresh of a string read
while TRAP_STRING_READ_POLLS is true (20_memory.md R57). -/

namespace Sys2Proof.Machine

/-! ## The routines -/

/-- GETC (R172). -/
def getcRoutine (s : State) : Attempt Unit := (readChar s).andThen fun b s => .done () (s.setReg .R0 (zextChar b))

/-- OUT (R173). -/
def outRoutine (s : State) : Attempt Unit := (putc (loByte (s.reg .R0)) s).andThen fun _ s => flush s

/-- Writes each byte in order. -/
def putAll : List Byte → State → Attempt Unit
  | [], s => .done () s
  | b :: rest, s => (putc b s).andThen fun _ s => putAll rest s

/-- `StrRead(a)` (R174). -/
def strRead (a : Word) (s : State) : Attempt Word := if config.trapStringReadPolls then memRead a s else memPeek a s

/-- The loop of PUTS and PUTSP: words are read from `a` on and the characters `chars` makes of each are written, until a
zero word is read (R174, R176). `fuel` bounds the rounds; see `stringFuel`. -/
def putString (chars : Word → List Byte) : Nat → Word → State → Attempt Unit
  | 0, _, _ => .stuck .stringNeverEnds
  | fuel + 1, a, s =>
    (strRead a s).andThen fun c s =>
      if c = 0x0000#16 then .done () s
      else (putAll (chars c) s).andThen fun _ s => putString chars fuel (a + 1#16) s

/-- Enough rounds to decide how the loop of PUTS or PUTSP ends. A zero word is met within one pass over the memory, or
never, and a write that fails is met within as many rounds as writes succeed before it. With TRAP_STRING_READ_POLLS true
each pass takes one poll, so a pass is allowed for every listed answer (log entry 8). -/
def stringFuel (s : State) : Nat := memWords * (s.polls.length + 1) + s.outputFails.headD 0 + 1

/-- PUTS writes the low byte of each word, whatever the high byte (R174; decision D12). -/
def putsChars (c : Word) : List Byte := [loByte c]

/-- PUTSP writes the low byte, then the high byte unless it is 0x00 (R176). -/
def putspChars (c : Word) : List Byte := if hiByte c = 0x00#8 then [loByte c] else [loByte c, hiByte c]

/-- PUTS (R174). -/
def putsRoutine (s : State) : Attempt Unit :=
  (putString putsChars (stringFuel s) (s.reg .R0) s).andThen fun _ s => flush s

/-- IN: prompt, read, echo, and only then R0 (R175). -/
def inRoutine (s : State) : Attempt Unit :=
  (putAll config.inPrompt s).andThen fun _ s =>
  (flush s).andThen fun _ s =>
  (readChar s).andThen fun c s =>
  (putc c s).andThen fun _ s =>
  (flush s).andThen fun _ s => .done () (s.setReg .R0 (zextChar c))

/-- PUTSP (R176). -/
def putspRoutine (s : State) : Attempt Unit :=
  (putString putspChars (stringFuel s) (s.reg .R0) s).andThen fun _ s => flush s

/-- HALT (R177). -/
def haltRoutine (s : State) : Attempt Unit := (flush s).andThen fun _ s => .done () s.stopRunning

/-- The trap dispatcher: the routine a vector selects, or nothing (R170, R178). -/
def trapRoutine (v : BitVec 8) (s : State) : Attempt Unit :=
  match v.toNat with
  | 0x20 => getcRoutine s
  | 0x21 => outRoutine s
  | 0x22 => putsRoutine s
  | 0x23 => inRoutine s
  | 0x24 => putspRoutine s
  | 0x25 => haltRoutine s
  | _ => .done () s

/-! ## The instructions -/

/-- TRAP (R170). -/
def execTrap (v : BitVec 8) (s : State) : Result := (trapRoutine v s).finish

/-- GETC (R172). -/
def execGetc (s : State) : Result := (getcRoutine s).finish

/-- OUT (R173). -/
def execOut (s : State) : Result := (outRoutine s).finish

/-- PUTS (R174). -/
def execPuts (s : State) : Result := (putsRoutine s).finish

/-- IN (R175). -/
def execIn (s : State) : Result := (inRoutine s).finish

/-- PUTSP (R176). -/
def execPutsp (s : State) : Result := (putspRoutine s).finish

/-- HALT (R177). -/
def execHalt (s : State) : Result := (haltRoutine s).finish

/-- RTI: a no-op; it returns from nothing (R179). -/
def execRti (s : State) : Result := .next s

/-- RESERVED: a no-op (R180). -/
def execReserved (s : State) : Result := .next s

end Sys2Proof.Machine
end

