-- ==== Sys2Proof/Machine/Step.lean ====
section
/-! DEFINITION. One step of the core (30_encoding.md R80), and where an instruction stands to be the next one fetched. -/

namespace Sys2Proof.Machine

/-- One fetch followed by one execute, while `rst` is released, no fatal code is set and Running is true; otherwise no
step exists, and the outcome says why (R80, 70_reset_and_hazards.md R240, 60_exceptions.md R212). -/
def step (s : State) : Host.Outcome State Fault Refusal :=
  if s.rst then .fault .heldInReset
  else match s.fatal with
    | some c => .fault (.stoppedByFatal c)
    | none => if s.running then (fetch s).into fun w s' => exec (decode w) s' else .fault .halted

/-- `s` with the low `nbits` bits of `w` stored as the word the next step fetches and runs: at pc, with the core free to
step. A word cannot be placed at KBSR_ADDR, where a fetch reads what the keyboard refresh leaves (20_memory.md R58), so a
state whose pc is there has its pc moved to PC_START. -/
def State.withFetchWord (s : State) (nbits w : Nat) : State :=
  let at' := if s.pc = config.kbsrAddr then config.pcStart else s.pc
  { s with
    rst := false
    fatal := none
    running := true
    pc := at'
    mem := s.mem.writeWord at' (BitVec.ofNat 16 (w % 2 ^ nbits)) }

end Sys2Proof.Machine
end

