-- ==== Sys2Proof/Machine/Loader.lean ====
section
/-! DEFINITION. What the host does to the machine: the `rst` and `host_load` ports (00_scope.md R17), the image loader
and the boot sequence (70_reset_and_hazards.md R240 to R246). These are inputs between steps; no instruction reaches them. -/

namespace Sys2Proof.Machine

/-- The host asserts `rst`: memory is cleared and the core takes its reset values, whatever it held (R240, R246). What
the console will answer belongs to the environment and stays. -/
def assertReset (s : State) : State :=
  { State.reset with
    rst := true
    polls := s.polls
    pollDraws := s.pollDraws
    getcs := s.getcs
    getcDraws := s.getcDraws
    outputFails := s.outputFails }

/-- The host releases `rst`, unless a load failed: the core then never leaves reset (R245, R246). -/
def releaseReset (s : State) : State := if s.fatal = some .loadFail then s else { s with rst := false }

/-- A write over `host_load`: a plain write, possible only while `rst` is asserted (R17, R244, R246). -/
def hostWrite (a v : Word) (s : State) : State := if s.rst then s.setWord a v else s

/-- The big-endian words of an image's bytes; an odd trailing byte is followed by a zero byte (R242, R243). -/
def imageWords : List Byte → List Word
  | [] => []
  | [hi] => [hi ++ 0x00#8]
  | hi :: lo :: rest => (hi ++ lo) :: imageWords rest

/-- Writes the words at consecutive addresses, wrapping at 65,536 (R244). -/
def placeWords : Word → List Word → State → State
  | _, [], s => s
  | a, w :: rest, s => placeWords (a + 1#16) rest (hostWrite a w s)

/-- Loads one image, `none` being one that is missing or unreadable: the first word is the origin, the rest the payload
(R244). An image without a whole first word is LOAD_FAIL (R245). -/
def loadImage (image : Option (List Byte)) (s : State) : State :=
  match image with
  | some (hi :: lo :: rest) => placeWords (hi ++ lo) (imageWords rest) s
  | some [_] => s.setFatal .loadFail
  | some [] => s.setFatal .loadFail
  | none => s.setFatal .loadFail

/-- Loads the images in order. The first failure ends the loading; what was loaded before it stays (R244, R245). -/
def loadImages : List (Option (List Byte)) → State → State
  | [], s => s
  | image :: rest, s =>
    if (loadImage image s).fatal = some .loadFail then loadImage image s else loadImages rest (loadImage image s)

/-- The boot sequence: assert `rst`, load every image, release `rst` (R246). -/
def boot (images : List (Option (List Byte))) (s : State) : State := releaseReset (loadImages images (assertReset s))

end Sys2Proof.Machine
end

