-- ==== Sys2Proof/Safety.lean ====
section
/-! DEFINITION. The terms claims about the machine are stated in. -/

namespace Sys2Proof.Machine

/-- The run states of 60_exceptions.md R212. -/
inductive RunState where
  | running
  | halted
  | fatal
deriving DecidableEq, Repr

/-- Which run state the core is in (R212). -/
def State.runState (s : State) : RunState :=
  match s.fatal with
  | some _ => .fatal
  | none => if s.running then .running else .halted

/-- The core may take a step: `rst` released, no fatal code, Running true (30_encoding.md R80). -/
abbrev State.mayStep (s : State) : Prop := s.rst = false ∧ s.fatal = none ∧ s.running = true

/-- What every step keeps: the memory is in canonical form, and LOAD_FAIL, which only the host's load raises, is never
the status of a core out of reset (60_exceptions.md R201, 70_reset_and_hazards.md R245). -/
abbrev State.Inv (s : State) : Prop := s.mem.wf ∧ (s.fatal = some .loadFail → s.rst = true)

/-- `exec i s` completes, writes `v` to `dr` and sets `cond` from it (00_scope.md R12), starting from `s'`: every other
register, pc, all of memory, the run state and the console are as in `s'`. -/
def CompletesWith (i : Instr) (s s' : State) (dr : Reg) (v : Word) : Prop :=
  ∃ t, exec i s = .next t ∧
    (∀ r, t.reg r = if r = dr then v else s'.reg r) ∧
    t.cond = (if v = 0x0000#16 then .zero else if v.getLsbD 15 then .neg else .pos) ∧
    (∀ a, t.word a = s'.word a) ∧
    t = { s' with regs := t.regs, cond := t.cond }

/-- `exec i s` completes and stores `v` at `a`, starting from `s'`: every other word of memory and everything else is as
in `s'`. -/
def CompletesStoring (i : Instr) (s s' : State) (a v : Word) : Prop :=
  ∃ t, exec i s = .next t ∧
    (∀ b, t.word b = if b = a then v else s'.word b) ∧
    t = { s' with mem := t.mem }

/-- The words from `a` on are the nonzero words `ws` and then a zero word, in the memory of `s`: a string of PUTS or
PUTSP (43_trap.md R174, R176). Addresses wrap. -/
def StringAt (s : State) : Word → List Word → Prop
  | a, [] => s.word a = 0x0000#16
  | a, w :: ws => s.word a = w ∧ w ≠ 0x0000#16 ∧ StringAt s (a + 1#16) ws

/-- The registers an instruction may write (10_state.md R31). -/
def mayWriteReg (i : Instr) (r : Reg) : Bool :=
  match i with
  | .addReg dr .. => r = dr
  | .addImm dr .. => r = dr
  | .andReg dr .. => r = dr
  | .andImm dr .. => r = dr
  | .not dr _ => r = dr
  | .ld dr _ => r = dr
  | .ldi dr _ => r = dr
  | .ldr dr .. => r = dr
  | .lea dr _ => r = dr
  | .jsr _ => r = .R7
  | .jsrr _ => r = .R7
  | .getc => r = .R0
  | .inp => r = .R0
  | .trap v => r = .R0 && (v = 0x20#8 || v = 0x23#8)
  | .br .. => false
  | .st .. => false
  | .sti .. => false
  | .str .. => false
  | .jmp _ => false
  | .rti => false
  | .reserved => false
  | .out => false
  | .puts => false
  | .putsp => false
  | .halt => false

/-- The seven flag-affecting instructions (10_state.md R35). -/
def affectsFlags : Instr → Bool
  | .addReg .. => true
  | .addImm .. => true
  | .andReg .. => true
  | .andImm .. => true
  | .not .. => true
  | .ld .. => true
  | .ldi .. => true
  | .ldr .. => true
  | .lea .. => true
  | .br .. => false
  | .st .. => false
  | .jsr .. => false
  | .jsrr .. => false
  | .str .. => false
  | .rti => false
  | .sti .. => false
  | .jmp .. => false
  | .reserved => false
  | .trap .. => false
  | .getc => false
  | .out => false
  | .puts => false
  | .inp => false
  | .putsp => false
  | .halt => false

/-- The instructions that may write pc after the fetch (10_state.md R38). -/
def transfersControl : Instr → Bool
  | .br .. => true
  | .jmp .. => true
  | .jsr .. => true
  | .jsrr .. => true
  | .addReg .. => false
  | .addImm .. => false
  | .andReg .. => false
  | .andImm .. => false
  | .not .. => false
  | .ld .. => false
  | .ldi .. => false
  | .ldr .. => false
  | .lea .. => false
  | .st .. => false
  | .sti .. => false
  | .str .. => false
  | .rti => false
  | .reserved => false
  | .trap .. => false
  | .getc => false
  | .out => false
  | .puts => false
  | .inp => false
  | .putsp => false
  | .halt => false

/-- The instructions that store a word: ST, STI and STR (20_memory.md R51). -/
def isStore : Instr → Bool
  | .br .. => false
  | .addReg .. => false
  | .addImm .. => false
  | .ld .. => false
  | .st .. => true
  | .jsr .. => false
  | .jsrr .. => false
  | .andReg .. => false
  | .andImm .. => false
  | .ldr .. => false
  | .str .. => true
  | .rti => false
  | .not .. => false
  | .ldi .. => false
  | .sti .. => true
  | .jmp .. => false
  | .reserved => false
  | .lea .. => false
  | .trap .. => false
  | .getc => false
  | .out => false
  | .puts => false
  | .inp => false
  | .putsp => false
  | .halt => false

/-- The instructions that read memory through `MemRead` after the fetch (20_memory.md R58), and so may poll the keyboard. -/
def readsMemory : Instr → Bool
  | .br .. => false
  | .addReg .. => false
  | .addImm .. => false
  | .ld .. => true
  | .st .. => false
  | .jsr .. => false
  | .jsrr .. => false
  | .andReg .. => false
  | .andImm .. => false
  | .ldr .. => true
  | .str .. => false
  | .rti => false
  | .not .. => false
  | .ldi .. => true
  | .sti .. => true
  | .jmp .. => false
  | .reserved => false
  | .lea .. => false
  | .trap .. => false
  | .getc => false
  | .out => false
  | .puts => false
  | .inp => false
  | .putsp => false
  | .halt => false

/-- The fatal conditions an instruction may raise, its fetch aside: the "raised by" column of 60_exceptions.md R201, with
TRAP_STRING_READ_POLLS false. -/
def mayRaise (i : Instr) (c : FatalCode) : Bool :=
  match c with
  | .kbdPollFail => readsMemory i
  | .consReadFail => i = .getc || i = .inp || i = .trap 0x20#8 || i = .trap 0x23#8
  | .consWriteFail =>
    i = .out || i = .puts || i = .inp || i = .putsp || i = .halt ||
      i = .trap 0x21#8 || i = .trap 0x22#8 || i = .trap 0x23#8 || i = .trap 0x24#8 || i = .trap 0x25#8
  | .loadFail => false

end Sys2Proof.Machine
end

