-- ==== Sys2Proof/Certificates/Slice0/Obligations.lean ====
section
/-! DEFINITION. The statements about this machine for the provers: one `def Obligations.<Name> : Prop` each. Throughout,
`exec` runs in a state whose pc is already the incremented pc (10_state.md R37), `w.signExtend 16` is `BitVec`'s own sign
extension, and the console fields `polls`, `getcs` and `outputFails` range over every list. An instruction's effect is
stated on its constructor; that its words decode to it, with every operand from its bits, is
`DecoderReadsTheFieldsOfEachForm`, which rests on the opcode numbers of decision D1 (log entry 9). -/

open Sys2Proof Sys2Proof.Machine

/-! ## The step, the fetch and reset -/

/-- 30_encoding.md R80: a step is taken only while Running is true and the fatal status is none; it reads the word at
pc through `MemRead`, increments pc and executes the decoded word; if the read raises, pc is not incremented and
nothing executes. That an asserted `rst` stops the core too is 70_reset_and_hazards.md R240, by the spec's decision
D21 (log entry 21), and that `step` answers a fault where no step exists is the model's choice (log entry 3). -/
def Obligations.StepFetchesIncrementsAndExecutes : Prop :=
  ∀ s : State,
    (s.mayStep → ∀ w s', memRead s.pc s = .done w s' →
      s'.pc = s.pc ∧ step s = exec (decode w) { s' with pc := s.pc + 1#16 }) ∧
    (s.mayStep → ∀ s', memRead s.pc s = .raised s' → s'.pc = s.pc ∧ step s = .next s') ∧
    (¬ s.mayStep → ∃ f, step s = .fault f)

/-- When the word at pc (not KBSR_ADDR) decodes to `i`, a step is `exec i` with pc moved past the word (R37, R80). -/
def Obligations.StepIsExecOfTheDecodedWord : Prop :=
  ∀ (s : State) (i : Instr), s.mayStep → s.pc ≠ config.kbsrAddr → decode (s.word s.pc) = i →
    step s = exec i { s with pc := s.pc + 1#16 }

/-- 20_memory.md R58 with 30_encoding.md R92: a fetch from KBSR_ADDR performs the refresh, and the word executed is
0x8000 (RTI) when a key was pending and 0x0000 (a branch never taken) when none was, both no-ops; a failed poll leaves
pc where it was. KBSR's word is the spec's decision D9, the consumed key D10 (log entry 16), and the opcode of 0x8000
D1 (log entry 9). -/
def Obligations.FetchFromKeyboardStatusIsANoOpOrFatal : Prop :=
  ∀ (s : State) (rest : List PollAnswer), s.mayStep → s.pc = config.kbsrAddr →
    (∀ b, s.polls = .key b :: rest → ∃ t, step s = .next t ∧
      (∀ a, t.word a = if a = config.kbsrAddr then 0x8000#16 else if a = config.kbdrAddr then b.setWidth 16 else s.word a) ∧
      t = { s with pc := s.pc + 1#16, polls := rest, mem := t.mem }) ∧
    (s.polls = .noKey :: rest → ∃ t, step s = .next t ∧
      (∀ a, t.word a = if a = config.kbsrAddr then 0x0000#16 else s.word a) ∧
      t = { s with pc := s.pc + 1#16, polls := rest, mem := t.mem }) ∧
    (s.polls = .fail :: rest → step s = .next { s with polls := rest, fatal := some .kbdPollFail })

/-- 10_state.md R43 and 70_reset_and_hazards.md R240, with no image loaded: the state the core leaves reset in. -/
def Obligations.ResetStateIsAsSpecified : Prop :=
  (∀ r, State.reset.reg r = 0x0000#16) ∧ State.reset.pc = 0x3000#16 ∧ State.reset.cond = .none ∧
    State.reset.running = true ∧ State.reset.fatal = none ∧ State.reset.out = [] ∧ (∀ a, State.reset.word a = 0x0000#16) ∧
    State.reset.mayStep

/-- 60_exceptions.md R212: halted and fatal are permanent. Whatever step sets a fatal code or clears Running, no step
follows it. The faults' names are the model's choice (log entry 3). -/
def Obligations.FatalAndHaltedStatesTakeNoFurtherStep : Prop :=
  ∀ s t : State, step s = .next t →
    (∀ c, t.fatal = some c → step t = .fault (.stoppedByFatal c)) ∧
    (t.fatal = none → t.running = false → step t = .fault .halted)

/-- 00_scope.md R14: raising a fatal condition sets the status to the code and keeps every other piece of state as it
stood, and no step of the resulting state exists. Answering a fault there is the model's choice (log entry 3). -/
def Obligations.RaisingAFatalKeepsAllElseAndStopsTheCore : Prop :=
  ∀ (c : FatalCode) (s : State),
    (raiseFatal c s : Attempt Unit) = .raised { s with fatal := some c } ∧ ∃ f, step (s.setFatal c) = .fault f

/-! ## Memory and registers -/

/-- 20_memory.md R55: a read of KBSR_ADDR polls once, consuming the answer; a key sets KBSR to 0x8000 and KBDR to the
zero-extended code, no key sets KBSR to 0x0000 and leaves KBDR, and a failed poll raises KBD_POLL_FAIL with no memory word
changed. -/
def Obligations.ReadOfKeyboardStatusPolls : Prop :=
  ∀ (s : State) (rest : List PollAnswer),
    (∀ b, s.polls = .key b :: rest → ∃ t, memRead config.kbsrAddr s = .done 0x8000#16 t ∧
      (∀ a, t.word a = if a = config.kbsrAddr then 0x8000#16 else if a = config.kbdrAddr then b.setWidth 16 else s.word a) ∧
      t = { s with polls := rest, mem := t.mem }) ∧
    (s.polls = .noKey :: rest → ∃ t, memRead config.kbsrAddr s = .done 0x0000#16 t ∧
      (∀ a, t.word a = if a = config.kbsrAddr then 0x0000#16 else s.word a) ∧
      t = { s with polls := rest, mem := t.mem }) ∧
    (s.polls = .fail :: rest →
      memRead config.kbsrAddr s = .raised { s with polls := rest, fatal := some .kbdPollFail })

/-- 20_memory.md R56: a read anywhere else, KBDR_ADDR included, returns the stored word and has no side effect. -/
def Obligations.ReadElsewhereHasNoSideEffect : Prop :=
  config.kbdrAddr ≠ config.kbsrAddr ∧ ∀ (s : State) (a : Word), a ≠ config.kbsrAddr → memRead a s = .done (s.word a) s

/-- 20_memory.md R54: a write stores the word at its address, the two keyboard addresses included, and has no other
effect. -/
def Obligations.WriteStoresTheWordAndNothingElse : Prop :=
  ∀ (s : State) (a v : Word),
    (∀ b, (s.setWord a v).word b = if b = a then v else s.word b) ∧ s.setWord a v = { s with mem := (s.setWord a v).mem }

/-- 10_state.md R30: eight registers, selected by a 3-bit field, none hardwired and no two aliased (the absence of aliases
is the spec's own inference there). -/
def Obligations.RegistersAreEightIndependentCells : Prop :=
  (List.range 8).map (fun k => regAt (BitVec.ofNat 3 k)) = [Reg.R0, .R1, .R2, .R3, .R4, .R5, .R6, .R7] ∧ ∀ (s : State) (r q : Reg) (v : Word),
    (s.setReg r v).reg q = (if q = r then v else s.reg q) ∧ s.setReg r v = { s with regs := (s.setReg r v).regs } ∧
      [Reg.R0, .R1, .R2, .R3, .R4, .R5, .R6, .R7].count r = 1

/-- Two canonical memories that store the same word at every address are one list (the model's form of 20_memory.md R50;
log entry 2). -/
def Obligations.CanonicalMemoryIsUnique : Prop :=
  ∀ m m' : Memory, m.wf → m'.wf → (∀ a, m.readWord a = m'.readWord a) → m = m'

/-! ## Operate instructions -/

/-- 40_operate.md R100, R101: ADD in both modes writes the sum modulo 65,536 to DR and sets `cond` from it. -/
def Obligations.AddWritesTheSumAndSetsCond : Prop :=
  ∀ (dr sr1 sr2 : Reg) (imm : BitVec 5) (s : State),
    CompletesWith (.addReg dr sr1 sr2) s s dr (s.reg sr1 + s.reg sr2) ∧
    CompletesWith (.addImm dr sr1 imm) s s dr (s.reg sr1 + imm.signExtend 16)

/-- 40_operate.md R102, R103: AND in both modes writes the bitwise AND, the immediate sign-extended first. -/
def Obligations.AndWritesTheConjunctionAndSetsCond : Prop :=
  ∀ (dr sr1 sr2 : Reg) (imm : BitVec 5) (s : State),
    CompletesWith (.andReg dr sr1 sr2) s s dr (s.reg sr1 &&& s.reg sr2) ∧
    CompletesWith (.andImm dr sr1 imm) s s dr (s.reg sr1 &&& imm.signExtend 16)

/-- 40_operate.md R104: NOT writes the bitwise complement. -/
def Obligations.NotWritesTheComplementAndSetsCond : Prop :=
  ∀ (dr sr : Reg) (s : State), CompletesWith (.not dr sr) s s dr (~~~(s.reg sr))

/-- 40_operate.md R105, one of its idioms: NOT and then ADD #1 is two's-complement negation, so -0x8000 is 0x8000. -/
def Obligations.NotThenAddOneNegates : Prop :=
  ∀ (dr sr : Reg) (s t u : State), exec (.not dr sr) s = .next t → exec (.addImm dr dr 1#5) t = .next u →
    u.reg dr = 0x0000#16 - s.reg sr ∧ (s.reg sr = 0x8000#16 → u.reg dr = 0x8000#16)

/-- 00_scope.md R8: bits N-1:0 of `sext_N(v)` are v's, and every bit above equals bit N-1. -/
def Obligations.SignExtensionCopiesTheTopBit : Prop :=
  ∀ (n : Nat) (v : BitVec n), 0 < n → n ≤ 16 →
    ∀ i < 16, (sext v).getLsbD i = if i < n then v.getLsbD i else v.getLsbD (n - 1)

/-- 00_scope.md R12: `setcc(v)` gives ZERO for 0x0000, NEG when bit 15 is set and POS otherwise, that is, by the sign of v
taken as two's complement. -/
def Obligations.SetccClassifiesTheSign : Prop :=
  ∀ (dr : Reg) (v : Word) (s : State),
    (writeResult dr v s).cond = (if v = 0x0000#16 then .zero else if v.getLsbD 15 then .neg else .pos) ∧
    (writeResult dr v s).cond = (if v.toInt = 0 then .zero else if v.toInt < 0 then .neg else .pos)

/-! ## Loads, LEA and stores -/

/-- 42_loadstore.md R140: LD writes the word read at pc + sext_9(PCoffset9) to DR and sets `cond`; away from KBSR_ADDR
nothing else changes, at KBSR_ADDR what `MemRead` did stays (R55), and a failed poll leaves DR and `cond` unchanged. -/
def Obligations.LdLoadsAndSetsCond : Prop :=
  ∀ (dr : Reg) (off : BitVec 9) (s : State),
    (s.pc + off.signExtend 16 ≠ config.kbsrAddr →
      CompletesWith (.ld dr off) s s dr (s.word (s.pc + off.signExtend 16))) ∧
    (∀ v s', memRead (s.pc + off.signExtend 16) s = .done v s' → CompletesWith (.ld dr off) s s' dr v) ∧
    (∀ s', memRead (s.pc + off.signExtend 16) s = .raised s' →
      exec (.ld dr off) s = .next s' ∧ s'.regs = s.regs ∧ s'.cond = s.cond ∧ s'.fatal = some .kbdPollFail)

/-- 42_loadstore.md R141: LDI reads the pointer and then the word it points at, each through `MemRead`; what a read did
stays if the next one fails, and a failed poll leaves DR and `cond` unchanged. -/
def Obligations.LdiLoadsThroughThePointer : Prop :=
  ∀ (dr : Reg) (off : BitVec 9) (s : State),
    (s.pc + off.signExtend 16 ≠ config.kbsrAddr → s.word (s.pc + off.signExtend 16) ≠ config.kbsrAddr →
      CompletesWith (.ldi dr off) s s dr (s.word (s.word (s.pc + off.signExtend 16)))) ∧
    (∀ q v s' s'', memRead (s.pc + off.signExtend 16) s = .done q s' → memRead q s' = .done v s'' →
      CompletesWith (.ldi dr off) s s'' dr v) ∧
    (∀ s', memRead (s.pc + off.signExtend 16) s = .raised s' →
      exec (.ldi dr off) s = .next s' ∧ s'.regs = s.regs ∧ s'.cond = s.cond ∧ s'.fatal = some .kbdPollFail) ∧
    (∀ q s' s'', memRead (s.pc + off.signExtend 16) s = .done q s' → memRead q s' = .raised s'' →
      exec (.ldi dr off) s = .next s'' ∧ s''.regs = s.regs ∧ s''.cond = s.cond ∧ s''.mem = s'.mem ∧
        s''.fatal = some .kbdPollFail)

/-- 42_loadstore.md R142: LDR writes the word read at BaseR + sext_6(offset6); the base is read before DR is written. -/
def Obligations.LdrLoadsFromBasePlusOffset : Prop :=
  ∀ (dr base : Reg) (off : BitVec 6) (s : State),
    (s.reg base + off.signExtend 16 ≠ config.kbsrAddr →
      CompletesWith (.ldr dr base off) s s dr (s.word (s.reg base + off.signExtend 16))) ∧
    (∀ v s', memRead (s.reg base + off.signExtend 16) s = .done v s' → CompletesWith (.ldr dr base off) s s' dr v) ∧
    (∀ s', memRead (s.reg base + off.signExtend 16) s = .raised s' →
      exec (.ldr dr base off) s = .next s' ∧ s'.regs = s.regs ∧ s'.cond = s.cond ∧ s'.fatal = some .kbdPollFail)

/-- 42_loadstore.md R143: LEA writes pc + sext_9(PCoffset9) and sets `cond`, with no memory access, so no poll either,
even when the address is KBSR_ADDR. -/
def Obligations.LeaWritesTheAddressAndSetsCond : Prop :=
  ∀ (dr : Reg) (off : BitVec 9) (s : State), CompletesWith (.lea dr off) s s dr (s.pc + off.signExtend 16)

/-- 42_loadstore.md R144, R146: ST and STR store SR at their effective address and nowhere else; no flag, no poll. -/
def Obligations.StAndStrStoreAtTheirAddress : Prop :=
  ∀ (sr base : Reg) (off9 : BitVec 9) (off6 : BitVec 6) (s : State),
    CompletesStoring (.st sr off9) s s (s.pc + off9.signExtend 16) (s.reg sr) ∧
    CompletesStoring (.str sr base off6) s s (s.reg base + off6.signExtend 16) (s.reg sr)

/-- 42_loadstore.md R145: STI reads the pointer through `MemRead` and stores SR where it points; a failed poll writes
nothing. -/
def Obligations.StiStoresThroughThePointer : Prop :=
  ∀ (sr : Reg) (off : BitVec 9) (s : State),
    (s.pc + off.signExtend 16 ≠ config.kbsrAddr →
      CompletesStoring (.sti sr off) s s (s.word (s.pc + off.signExtend 16)) (s.reg sr)) ∧
    (∀ q s', memRead (s.pc + off.signExtend 16) s = .done q s' → CompletesStoring (.sti sr off) s s' q (s.reg sr)) ∧
    (∀ s', memRead (s.pc + off.signExtend 16) s = .raised s' →
      exec (.sti sr off) s = .next s' ∧ s'.mem = s.mem ∧ s'.fatal = some .kbdPollFail)

/-- 20_memory.md R63: a store is seen by the fetch of the very next step. ST with offset 0 replaces the instruction
after it. (The opcode number of ST is decision D1, log entry 9.) -/
def Obligations.NextStepFetchesTheStoredWord : Prop :=
  ∀ (s : State) (sr : Reg), s.mayStep → s.pc ≠ config.kbsrAddr → s.pc + 1#16 ≠ config.kbsrAddr →
    s.word s.pc = encode (.st sr 0#9) →
      ∃ t, step s = .next t ∧ t.word (s.pc + 1#16) = s.reg sr ∧
        step t = exec (decode (s.reg sr)) { t with pc := s.pc + 2#16 }

/-! ## Control transfer -/

/-- 41_control.md R120: BR goes to pc + sext_9(PCoffset9) when a requested flag is the one `cond` holds, and otherwise
continues; nothing else changes. While `cond` is NONE it is never taken. -/
def Obligations.BrBranchesOnARequestedFlag : Prop :=
  ∀ (n z p : Bool) (off : BitVec 9) (s : State),
    exec (.br n z p off) s = .next { s with
      pc := if (n = true ∧ s.cond = .neg) ∨ (z = true ∧ s.cond = .zero) ∨ (p = true ∧ s.cond = .pos)
        then s.pc + off.signExtend 16 else s.pc }

/-- 41_control.md R120 with 10_state.md R34, on the instruction word itself: the branch is taken exactly when the
bitwise AND of `w[11:9]` and `cond[2:0]` is not zero. (The opcode number of BR is decision D1, log entry 9, and the
bits of `cond` are decision D4, log entry 11.) -/
def Obligations.BranchWordIsTestedBitwise : Prop :=
  ∀ (w : Word) (s : State), w.extractLsb' 12 4 = 0x0#4 →
    exec (decode w) s = .next { s with
      pc := if w.extractLsb' 9 3 &&& s.cond.bits ≠ 0b000#3 then s.pc + (w.extractLsb' 0 9).signExtend 16 else s.pc }

/-- 41_control.md R120, its corner case: a taken branch to itself repeats for ever, the state unchanged. (The opcode
number of BR is decision D1, log entry 9.) -/
def Obligations.TakenBranchToItselfChangesNothing : Prop :=
  ∀ (s : State) (n z p : Bool), s.mayStep → s.pc ≠ config.kbsrAddr → s.word s.pc = encode (.br n z p 0x1FF#9) →
    branchTaken n z p s.cond = true → step s = .next s

/-- 41_control.md R121: JMP sets pc to BaseR and changes nothing else. -/
def Obligations.JmpGoesToBaseR : Prop :=
  ∀ (base : Reg) (s : State), exec (.jmp base) s = .next { s with pc := s.reg base }

/-- 41_control.md R122: JSR writes the incremented pc to R7 and adds the offset to the same pc. -/
def Obligations.JsrLinksAndAddsTheOffset : Prop :=
  ∀ (off : BitVec 11) (s : State), ∃ t, exec (.jsr off) s = .next t ∧
    (∀ r, t.reg r = if r = .R7 then s.pc else s.reg r) ∧
    t = { s with regs := t.regs, pc := s.pc + off.signExtend 16 }

/-- 41_control.md R123: JSRR writes the incremented pc to R7 and then reads BaseR, so JSRR R7 continues at the next
word. -/
def Obligations.JsrrLinksBeforeReadingBaseR : Prop :=
  ∀ (base : Reg) (s : State), ∃ t, exec (.jsrr base) s = .next t ∧
    (∀ r, t.reg r = if r = .R7 then s.pc else s.reg r) ∧
    t = { s with regs := t.regs, pc := if base = .R7 then s.pc else s.reg base }

/-! ## TRAP, RTI and RESERVED -/

/-- 43_trap.md R178, R179, R180: a TRAP with an unlisted vector, RTI and RESERVED change nothing. -/
def Obligations.UnlistedTrapsRtiAndReservedDoNothing : Prop :=
  ∀ (v : BitVec 8) (s : State),
    (v.toNat < 0x20 ∨ 0x25 < v.toNat → exec (.trap v) s = .next s) ∧
    exec .rti s = .next s ∧ exec .reserved s = .next s

/-- 43_trap.md R170, R171: the vector alone selects the routine, whatever bits 11:8 of the word hold, and a vector
outside the table does nothing (decision D7, log entry 14). No TRAP writes pc, `cond`, memory or a register, R7
included (decision D6, log entry 13), but R0 under GETC and IN. The opcode number of TRAP is decision D1 (log entry
9). -/
def Obligations.TrapVectorSelectsTheRoutine : Prop :=
  ∀ (w : Word) (s : State), w.extractLsb' 12 4 = 0xF#4 →
    (exec (decode w) s = match (w.extractLsb' 0 8).toNat with
      | 0x20 => exec .getc s
      | 0x21 => exec .out s
      | 0x22 => exec .puts s
      | 0x23 => exec .inp s
      | 0x24 => exec .putsp s
      | 0x25 => exec .halt s
      | _ => .next s) ∧
    exec (.trap (w.extractLsb' 0 8)) s = exec (decode w) s ∧
    ∀ t, exec (decode w) s = .next t → t.pc = s.pc ∧ t.cond = s.cond ∧ t.mem = s.mem ∧
      ∀ r, (r = .R0 → w.extractLsb' 0 8 ≠ 0x20#8 ∧ w.extractLsb' 0 8 ≠ 0x23#8) → t.reg r = s.reg r

/-- 43_trap.md R172: GETC writes the zero-extended character to R0; a read failure raises CONS_READ_FAIL with R0
unchanged; a read that is never answered is a step that does not complete. The zero-extended byte is the spec's
decision D8 (log entry 15), the failing read D15, and answering a fault for the step that does not complete the
model's choice (log entry 5). -/
def Obligations.GetcReadsOneCharacter : Prop :=
  ∀ (s : State) (rest : List GetcAnswer),
    (∀ b, s.getcs = .char b :: rest → ∃ t, exec .getc s = .next t ∧
      (∀ r, t.reg r = if r = .R0 then b.setWidth 16 else s.reg r) ∧
      t = { s with regs := t.regs, getcs := rest }) ∧
    (s.getcs = .fail :: rest → exec .getc s = .next { s with getcs := rest, fatal := some .consReadFail }) ∧
    (s.getcs = .never :: rest → exec .getc s = .fault .readNeverAnswers)

/-- 43_trap.md R173: OUT writes the low byte of R0 and flushes; a failing write or flush raises CONS_WRITE_FAIL. R0 is not
changed. The character is in `out` once it is passed to ConsPutc, whatever the answer (10_state.md R42 and the spec's
decision D14, log entry 23). That a write may fail is decision D15 (log entry 6). -/
def Obligations.OutWritesTheLowByteOfR0 : Prop :=
  ∀ (s : State) (n : Nat) (rest : List Nat),
    (s.outputFails = [] → exec .out s = .next { s with out := s.out ++ [(s.reg .R0).setWidth 8] }) ∧
    (s.outputFails = (n + 2) :: rest →
      exec .out s = .next { s with out := s.out ++ [(s.reg .R0).setWidth 8], outputFails := n :: rest }) ∧
    (s.outputFails = 1 :: rest → exec .out s = .next { s with
      out := s.out ++ [(s.reg .R0).setWidth 8], outputFails := rest, fatal := some .consWriteFail }) ∧
    (s.outputFails = 0 :: rest → exec .out s = .next { s with
      out := s.out ++ [(s.reg .R0).setWidth 8], outputFails := rest, fatal := some .consWriteFail })

/-- 43_trap.md R174: PUTS writes the low byte of each word from R0 on, up to the first zero word, and flushes. If the
write or flush after `g` others fails, CONS_WRITE_FAIL is raised and `out` keeps every character passed to ConsPutc,
the failing one included (10_state.md R42 and the spec's decision D14, log entry 23). The low byte alone is decision
D12 (log entry 18), reads without a poll D11 (log entry 17), failing writes D15 (log entry 6). -/
def Obligations.PutsWritesTheLowBytesOfTheString : Prop :=
  ∀ (s : State) (ws : List Word) (g : Nat) (rest : List Nat), StringAt s (s.reg .R0) ws →
    (s.outputFails = [] → exec .puts s = .next { s with out := s.out ++ ws.map fun w => w.setWidth 8 }) ∧
    (s.outputFails = g :: rest → ws.length < g → exec .puts s = .next { s with
      out := s.out ++ ws.map fun w => w.setWidth 8, outputFails := (g - ws.length - 1) :: rest }) ∧
    (s.outputFails = g :: rest → g ≤ ws.length → exec .puts s = .next { s with
      out := s.out ++ (ws.map fun w => w.setWidth 8).take (g + 1), outputFails := rest, fatal := some .consWriteFail })

/-- 43_trap.md R176: PUTSP writes each word's low byte and then its high byte unless that is 0x00. A write or flush
that fails raises CONS_WRITE_FAIL, and `out` keeps every character passed to ConsPutc, the failing one included
(10_state.md R42 and the spec's decision D14, log entry 23). Reads without a poll are decision D11 (log entry 17),
failing writes D15 (log entry 6). -/
def Obligations.PutspWritesThePackedString : Prop :=
  ∀ (s : State) (ws : List Word) (l : List Byte) (g : Nat) (rest : List Nat), StringAt s (s.reg .R0) ws →
    l = (ws.flatMap fun w =>
      if w.extractLsb' 8 8 = 0x00#8 then [w.setWidth 8] else [w.setWidth 8, w.extractLsb' 8 8]) →
    (s.outputFails = [] → exec .putsp s = .next { s with out := s.out ++ l }) ∧
    (s.outputFails = g :: rest → l.length < g → exec .putsp s = .next { s with
      out := s.out ++ l, outputFails := (g - l.length - 1) :: rest }) ∧
    (s.outputFails = g :: rest → g ≤ l.length → exec .putsp s = .next { s with
      out := s.out ++ l.take (g + 1), outputFails := rest, fatal := some .consWriteFail })

/-- 43_trap.md R174, R176 and 93_implementation_defined.md I13: PUTS and PUTSP fail to complete exactly when no word
of memory is zero and no write is to fail. This holds with TRAP_STRING_READ_POLLS false, the spec's decision D11 (log
entry 17). That the step which never completes answers a fault is the model's choice (log entry 8). -/
def Obligations.StringTrapsHangOnlyWithoutAZeroWord : Prop :=
  ∀ s : State,
    ((∃ f, exec .puts s = .fault f) ↔ (∀ a, s.word a ≠ 0x0000#16) ∧ s.outputFails = []) ∧
    ((∃ f, exec .putsp s = .fault f) ↔ (∀ a, s.word a ≠ 0x0000#16) ∧ s.outputFails = [])

/-- 43_trap.md R175: IN writes the prompt, reads a character, echoes it and only then writes it to R0; a read failure
raises CONS_READ_FAIL after the prompt. The prompt is the open parameter IN_PROMPT: this holds for every value of it.
The zero-extended byte is decision D8 (log entry 15), the failing read D15, and the fault for the read that is never
answered the model's choice (log entry 5). -/
def Obligations.InPromptsReadsAndEchoes : Prop :=
  ∀ (s : State) (rest : List GetcAnswer), s.outputFails = [] →
    (∀ c, s.getcs = .char c :: rest → ∃ t, exec .inp s = .next t ∧
      (∀ r, t.reg r = if r = .R0 then c.setWidth 16 else s.reg r) ∧
      t = { s with regs := t.regs, getcs := rest, out := s.out ++ config.inPrompt ++ [c] }) ∧
    (s.getcs = .fail :: rest → exec .inp s = .next { s with
      getcs := rest, out := s.out ++ config.inPrompt, fatal := some .consReadFail }) ∧
    (s.getcs = .never :: rest → exec .inp s = .fault .readNeverAnswers)

/-- 43_trap.md R175 with 60_exceptions.md R203: the first failing write or flush of IN raises CONS_WRITE_FAIL, and R0
is written only after the echo and its flush succeed. With `L` the prompt's length, answer number `g` is a prompt
character for g < L, the flush for g = L, the echo for g = L + 1 and its flush for g = L + 2. The places of the
flushes are the spec's decision D13 (log entry 7), failing writes D15 (log entry 6), and R203 is the spec's own
inference. `out` keeps every character passed to ConsPutc, the failing one included (10_state.md R42 and decision D14,
log entry 23). -/
def Obligations.InRaisesAtTheFirstFailingWrite : Prop :=
  ∀ (s : State) (c : Byte) (g : Nat) (rest : List GetcAnswer) (fails : List Nat),
    s.getcs = .char c :: rest → s.outputFails = g :: fails →
    (g ≤ config.inPrompt.length → exec .inp s = .next { s with
      out := s.out ++ config.inPrompt.take (g + 1), outputFails := fails, fatal := some .consWriteFail }) ∧
    (g = config.inPrompt.length + 1 → exec .inp s = .next { s with
      getcs := rest, out := s.out ++ config.inPrompt ++ [c], outputFails := fails, fatal := some .consWriteFail }) ∧
    (g = config.inPrompt.length + 2 → exec .inp s = .next { s with
      getcs := rest, out := s.out ++ config.inPrompt ++ [c], outputFails := fails, fatal := some .consWriteFail }) ∧
    (config.inPrompt.length + 3 ≤ g → ∃ t, exec .inp s = .next t ∧ t.reg .R0 = c.setWidth 16)

/-- 43_trap.md R177: HALT flushes, writes nothing and clears Running; if the flush fails, Running stays true and
CONS_WRITE_FAIL is raised. -/
def Obligations.HaltClearsRunning : Prop :=
  ∀ (s : State) (n : Nat) (rest : List Nat),
    (s.outputFails = [] → exec .halt s = .next { s with running := false }) ∧
    (s.outputFails = (n + 1) :: rest → exec .halt s = .next { s with running := false, outputFails := n :: rest }) ∧
    (s.outputFails = 0 :: rest → exec .halt s = .next { s with outputFails := rest, fatal := some .consWriteFail })

/-! ## Whole-machine rules -/

/-- 10_state.md R31: a register changes only under an instruction that R31 lets write it. -/
def Obligations.RegistersChangeOnlyAsListed : Prop :=
  ∀ (i : Instr) (s t : State) (r : Reg), exec i s = .next t → mayWriteReg i r = false → t.reg r = s.reg r

/-- 10_state.md R35: only the seven flag-affecting instructions change `cond`, and each that raises no fatal condition
leaves `cond` set from its DR (00_scope.md R12). -/
def Obligations.CondFollowsTheSevenInstructions : Prop :=
  ∀ (i : Instr) (s t : State), exec i s = .next t →
    (affectsFlags i = false → t.cond = s.cond) ∧
    (affectsFlags i = true → t.fatal = none → ∀ dr, mayWriteReg i dr = true →
      t.cond = if t.reg dr = 0x0000#16 then .zero else if (t.reg dr).getLsbD 15 then .neg else .pos)

/-- 10_state.md R33: once `cond` holds one of POS, ZERO and NEG, every step leaves it holding one of them. -/
def Obligations.CondNeverReturnsToNone : Prop :=
  ∀ s t : State, step s = .next t → s.cond ≠ .none → t.cond ≠ .none

/-- 10_state.md R38: after the fetch only a taken BR, JMP, JSR and JSRR write pc, so every other step that completes
continues at the next word. At reset pc is 0x3000, whatever the origins of the loaded images. -/
def Obligations.OnlyControlTransfersWritePc : Prop :=
  State.reset.pc = 0x3000#16 ∧ (∀ images, (boot images State.reset).pc = 0x3000#16) ∧
  (∀ n z p off s, branchTaken n z p s.cond = false → exec (.br n z p off) s = .next s) ∧
  (∀ (i : Instr) (s t : State), exec i s = .next t → transfersControl i = false → t.pc = s.pc) ∧
  ∀ (s t : State) (w : Word) (s' : State), step s = .next t → fetch s = .done w s' → transfersControl (decode w) = false →
    t.pc = s.pc + 1#16

/-- 20_memory.md R51, R58: after the fetch only ST, STI and STR and the refresh of a `MemRead` write memory; what is
not a store leaves every word but the two keyboard words, and what reads no memory leaves all of it. That PUTS and
PUTSP change none is the spec's decision D11 (log entry 17). -/
def Obligations.MemoryChangesOnlyByStoresAndRefresh : Prop :=
  ∀ (i : Instr) (s t : State), exec i s = .next t → isStore i = false →
    (∀ a, a ≠ config.kbsrAddr → a ≠ config.kbdrAddr → t.word a = s.word a) ∧ (readsMemory i = false → t.mem = s.mem)

/-- 10_state.md R39: Running is true at reset, goes from true to false only, and only by a HALT that was fetched; once
it is false no step follows. Answering a fault there is the model's choice (log entry 3). -/
def Obligations.OnlyHaltClearsRunning : Prop :=
  State.reset.running = true ∧
  ∀ s t : State, (s.running = false → ∃ f, step s = .fault f) ∧
    (step s = .next t → t.running = false → s.running = true ∧ ∃ w s', fetch s = .done w s' ∧ decode w = .halt)

/-- 00_scope.md R13: the output stream is append-only. -/
def Obligations.OutputIsAppendOnly : Prop :=
  ∀ s t : State, step s = .next t → s.out <+: t.out

/-- 60_exceptions.md R201: the codes' numbers; an instruction raises only the fatal conditions its row names (with
TRAP_STRING_READ_POLLS false), and the fetch only KBD_POLL_FAIL; none raises LOAD_FAIL. The numbers are the spec's
decision D16 (log entry 19), the parameter's value D11 (log entry 17). -/
def Obligations.FatalCodesAreRaisedOnlyAsListed : Prop :=
  [none, some .kbdPollFail, some .consReadFail, some .consWriteFail, some .loadFail].map fatalBits = [0#3, 1#3, 2#3, 3#3, 4#3] ∧
  (∀ (i : Instr) (s t : State) (c : FatalCode), exec i s = .next t → s.fatal = none → t.fatal = some c →
    mayRaise i c = true) ∧
  ∀ s t : State, fetch s = .raised t → t.fatal = some .kbdPollFail ∧ s.pc = config.kbsrAddr

/-- 60_exceptions.md R202: a key that arrives changes nothing until the program reads KBSR or calls GETC or IN. Every
instruction but LD, LDI, LDR and STI runs the same whatever the coming polls would answer. That GETC and IN are among
them, against R202's last words and the one input stream of decision D10, is the model's choice: it lists the answers
of polls and of blocking reads apart (log entry 5). For PUTS and PUTSP this holds with TRAP_STRING_READ_POLLS false,
the spec's decision D11 (log entry 17), which R202 does not say. -/
def Obligations.PendingKeysChangeNothingUntilRead : Prop :=
  ∀ (i : Instr) (s t : State) (keys : List PollAnswer), readsMemory i = false → exec i s = .next t →
    exec i { s with polls := keys } = .next { t with polls := keys }

/-- Every step keeps the invariant: the memory stays in canonical form (log entry 2) and LOAD_FAIL never becomes the
status of a core out of reset (60_exceptions.md R201). -/
def Obligations.EveryStepKeepsTheInvariant : Prop :=
  ∀ s t : State, s.Inv → step s = .next t → t.Inv

/-- The invariant holds right after reset. -/
def Obligations.ResetMeetsTheInvariant : Prop := State.reset.Inv

/-! ## Encoding -/

/-- 30_encoding.md section 4: decoding the canonical word of a well-formed instruction gives it back, with every operand
at every value. -/
def Obligations.DecodeOfEncodeIsTheInstruction : Prop :=
  ∀ i : Instr, i.wellFormed = true → decode (encode i) = i

/-- 30_encoding.md R91: words that differ only in bits their form ignores decode alike, and each agrees with its canonical
word on the bits the form reads. -/
def Obligations.IgnoredBitsDoNotMatter : Prop :=
  (∀ w w' : Word, w &&& (decode w).readMask = w' &&& (decode w).readMask → decode w' = decode w) ∧
  ∀ w : Word, (decode w).wellFormed = true ∧ encode (decode w) &&& (decode w).readMask = w &&& (decode w).readMask

/-- 30_encoding.md R82 to R90, form by form: a word that matches a row of the table decodes to that row's form, with each
field taken from the row's bits. -/
def Obligations.DecoderReadsTheFieldsOfEachForm : Prop :=
  ∀ w : Word,
    let dr := regAt (w.extractLsb' 9 3)
    let sr1 := regAt (w.extractLsb' 6 3)
    let sr2 := regAt (w.extractLsb' 0 3)
    (w &&& 0xF000#16 = 0x0000#16 →
      decode w = .br (w.getLsbD 11) (w.getLsbD 10) (w.getLsbD 9) (w.extractLsb' 0 9)) ∧
    (w &&& 0xF020#16 = 0x1000#16 → decode w = .addReg dr sr1 sr2) ∧
    (w &&& 0xF020#16 = 0x1020#16 → decode w = .addImm dr sr1 (w.extractLsb' 0 5)) ∧
    (w &&& 0xF000#16 = 0x2000#16 → decode w = .ld dr (w.extractLsb' 0 9)) ∧
    (w &&& 0xF000#16 = 0x3000#16 → decode w = .st dr (w.extractLsb' 0 9)) ∧
    (w &&& 0xF800#16 = 0x4800#16 → decode w = .jsr (w.extractLsb' 0 11)) ∧
    (w &&& 0xF800#16 = 0x4000#16 → decode w = .jsrr sr1) ∧
    (w &&& 0xF020#16 = 0x5000#16 → decode w = .andReg dr sr1 sr2) ∧
    (w &&& 0xF020#16 = 0x5020#16 → decode w = .andImm dr sr1 (w.extractLsb' 0 5)) ∧
    (w &&& 0xF000#16 = 0x6000#16 → decode w = .ldr dr sr1 (w.extractLsb' 0 6)) ∧
    (w &&& 0xF000#16 = 0x7000#16 → decode w = .str dr sr1 (w.extractLsb' 0 6)) ∧
    (w &&& 0xF000#16 = 0x8000#16 → decode w = .rti) ∧
    (w &&& 0xF000#16 = 0x9000#16 → decode w = .not dr sr1) ∧
    (w &&& 0xF000#16 = 0xA000#16 → decode w = .ldi dr (w.extractLsb' 0 9)) ∧
    (w &&& 0xF000#16 = 0xB000#16 → decode w = .sti dr (w.extractLsb' 0 9)) ∧
    (w &&& 0xF000#16 = 0xC000#16 → decode w = .jmp sr1) ∧
    (w &&& 0xF000#16 = 0xD000#16 → decode w = .reserved) ∧
    (w &&& 0xF000#16 = 0xE000#16 → decode w = .lea dr (w.extractLsb' 0 9)) ∧
    (w &&& 0xF000#16 = 0xF000#16 → decode w = trapInstr (w.extractLsb' 0 8))

/-- 30_encoding.md section 4: every 16-bit word matches exactly one of the nineteen rows, the one its decoding names. -/
def Obligations.EveryWordMatchesExactlyOneForm : Prop :=
  ∀ w : Word,
    [(0xF000#16, 0x0000#16), (0xF020#16, 0x1000#16), (0xF020#16, 0x1020#16), (0xF000#16, 0x2000#16),
      (0xF000#16, 0x3000#16), (0xF800#16, 0x4800#16), (0xF800#16, 0x4000#16), (0xF020#16, 0x5000#16),
      (0xF020#16, 0x5020#16), (0xF000#16, 0x6000#16), (0xF000#16, 0x7000#16), (0xF000#16, 0x8000#16),
      (0xF000#16, 0x9000#16), (0xF000#16, 0xA000#16), (0xF000#16, 0xB000#16), (0xF000#16, 0xC000#16),
      (0xF000#16, 0xD000#16), (0xF000#16, 0xE000#16), (0xF000#16, 0xF000#16)].countP (fun r : Word × Word => w &&& r.1 = r.2) = 1 ∧
    w &&& (decode w).pattern.1 = (decode w).pattern.2

/-- Words written out from the layouts of 30_encoding.md section 4 decode to what they stand for (95_test_vectors.md
W2, W3, W5, W6 and vectors of every family). The opcode numbers are decision D1 (log entry 9, PRESUMED). -/
def Obligations.SampleWordsDecodeAsWritten : Prop :=
  decode 0b0001000001100101#16 = .addImm .R0 .R1 5#5 ∧
  decode 0b0001000001000010#16 = .addReg .R0 .R1 .R2 ∧
  decode 0b1010000000000001#16 = .ldi .R0 1#9 ∧
  decode 0b1111000000100101#16 = .halt ∧
  decode 0b0000001111111101#16 = .br false false true 0x1FD#9 ∧
  decode 0b1100000111000000#16 = .jmp .R7 ∧
  decode 0b0111100101001010#16 = .str .R4 .R5 10#6 ∧
  decode 0b1001100101111111#16 = .not .R4 .R5

/-! ## The image loader and boot -/

/-- 70_reset_and_hazards.md R242, R244: the bytes of an image are big-endian words, the first its origin; payload word i
lands at origin + i modulo 65,536 and stays unless a later payload word wraps onto it, and every other word stays. -/
def Obligations.ImagePayloadLandsFromItsOrigin : Prop :=
  ∀ (s : State) (origin : Word) (ws : List Word), s.rst = true →
    ∃ t, loadImage (some ((origin :: ws).flatMap fun w => [w.extractLsb' 8 8, w.extractLsb' 0 8])) s = t ∧
      (∀ (i : Nat) (h : i < ws.length), (∀ j < ws.length, i < j → origin + BitVec.ofNat 16 j ≠ origin + BitVec.ofNat 16 i) →
        t.word (origin + BitVec.ofNat 16 i) = ws[i]) ∧
      (∀ a, (∀ i < ws.length, a ≠ origin + BitVec.ofNat 16 i) → t.word a = s.word a) ∧
      t = { s with mem := t.mem }

/-- 70_reset_and_hazards.md R243: an image of odd length is read as if one zero byte followed it; n bytes are ⌈n / 2⌉
words; an image of exactly 2 bytes loads nothing. The word count and the 2-byte image are the spec's own inference in
R243. -/
def Obligations.OddImageIsPaddedWithAZeroByte : Prop :=
  (∀ (s : State) (bytes : List Byte) (last : Byte), bytes.length % 2 = 0 → bytes ≠ [] →
    loadImage (some (bytes ++ [last])) s = loadImage (some (bytes ++ [last, 0x00#8])) s) ∧
  (∀ bytes : List Byte, (imageWords bytes).length = (bytes.length + 1) / 2) ∧
  ∀ (s : State) (hi lo : Byte), loadImage (some [hi, lo]) s = s

/-- 70_reset_and_hazards.md R245: with an image that is missing or shorter than 2 bytes the core never leaves reset:
the host sees LOAD_FAIL and no step is taken. The port's part is decision D21 (log entry 21); answering the fault is
the model's choice (log entry 3). -/
def Obligations.FailedLoadKeepsTheCoreInReset : Prop :=
  ∀ (s : State) (before after : List (Option (List Byte))) (bad : Option (List Byte)),
    (bad = none ∨ ∃ bytes, bad = some bytes ∧ bytes.length < 2) →
      (boot (before ++ bad :: after) s).fatal = some .loadFail ∧ (boot (before ++ bad :: after) s).rst = true ∧
        step (boot (before ++ bad :: after) s) = .fault .heldInReset

/-- 70_reset_and_hazards.md R240, R246 (the spec's decision D21): booting readable images releases a core in its reset
state whatever it held before, with only memory changed from reset among the state the spec gives; once `rst` is
released the host cannot write memory. Two clauses are the model's choice: the five console fields, which hold what the
environment will answer, stay as they were (log entry 21), and the memory the images leave is in the model's canonical
form, part of `State.Inv` (log entry 2). -/
def Obligations.BootReleasesTheResetState : Prop :=
  ∀ (s : State) (images : List (List Byte)), (∀ bytes ∈ images, 2 ≤ bytes.length) →
    (boot (images.map some) s) = { State.reset with
      mem := (boot (images.map some) s).mem
      polls := s.polls
      pollDraws := s.pollDraws
      getcs := s.getcs
      getcDraws := s.getcDraws
      outputFails := s.outputFails } ∧
    (boot (images.map some) s).Inv ∧
    ∀ a v, hostWrite a v (boot (images.map some) s) = boot (images.map some) s
end

