-- ==== Sys2Proof/Laws/Decode.lean ====
section
/-! SUPPORT. The decoding tables are each other's inverses, and what each field of an encoded word is. -/

namespace Sys2Proof

@[simp] theorem regAt_regBits (r : Reg) : regAt (regBits r) = r := by cases r <;> rfl

@[simp] theorem regBits_regAt (b : BitVec 3) : regBits (regAt b) = b := by
  revert b
  decide

@[simp] theorem opcodeAt_opcodeBits (o : Opcode) : opcodeAt (opcodeBits o) = o := by cases o <;> decide

@[simp] theorem opcodeBits_opcodeAt (b : BitVec 4) : opcodeBits (opcodeAt b) = b := by
  revert b
  decide

/-- The opcode table names each operation once (30_encoding.md R89). -/
theorem opcodeTable_nodup : opcodeTable.Nodup := by decide

/-- The vectors that select a routine are exactly those `trapInstr` does not answer with a plain TRAP (43_trap.md R170). -/
theorem trapInstr_of_not_routine {v : BitVec 8} (h : isRoutineVector v = false) : trapInstr v = .trap v := by
  revert v
  decide

theorem getLsbD_field (w : Word) (lo n i : Nat) : (field w lo n).getLsbD i = (decide (i < n) && w.getLsbD (lo + i)) := by
  simp [field, BitVec.getLsbD_extractLsb']

/-- A field is known by its bits. -/
theorem field_eq {w : Word} {lo n : Nat} {b : BitVec n} (h : ∀ i < n, w.getLsbD (lo + i) = b.getLsbD i) :
    field w lo n = b := by
  apply BitVec.eq_of_getLsbD_eq
  intro i hi
  rw [getLsbD_field, h i hi]
  simp [hi]

/-! ## The fields of the encoder's layouts -/

theorem encodeOff9_opcode (o : Opcode) (r : Reg) (off : BitVec 9) : field (encodeOff9 o r off) 12 4 = opcodeBits o :=
  field_eq fun i hi => by
    simp only [encodeOff9, BitVec.getLsbD_append]
    rw [if_neg (by omega), if_neg (by omega)]
    congr 1
    omega

theorem encodeOff9_reg (o : Opcode) (r : Reg) (off : BitVec 9) : field (encodeOff9 o r off) 9 3 = regBits r :=
  field_eq fun i hi => by
    simp only [encodeOff9, BitVec.getLsbD_append]
    rw [if_neg (by omega), if_pos (by omega)]
    congr 1
    omega

theorem encodeOff9_off (o : Opcode) (r : Reg) (off : BitVec 9) : field (encodeOff9 o r off) 0 9 = off :=
  field_eq fun i hi => by
    simp only [encodeOff9, BitVec.getLsbD_append]
    rw [if_pos (by omega)]
    congr 1
    omega

theorem encodeLow6_opcode (o : Opcode) (r q : Reg) (low : BitVec 6) : field (encodeLow6 o r q low) 12 4 = opcodeBits o :=
  field_eq fun i hi => by
    simp only [encodeLow6, BitVec.getLsbD_append]
    rw [if_neg (by omega), if_neg (by omega), if_neg (by omega)]
    congr 1
    omega

theorem encodeLow6_reg (o : Opcode) (r q : Reg) (low : BitVec 6) : field (encodeLow6 o r q low) 9 3 = regBits r :=
  field_eq fun i hi => by
    simp only [encodeLow6, BitVec.getLsbD_append]
    rw [if_neg (by omega), if_neg (by omega), if_pos (by omega)]
    congr 1
    omega

theorem encodeLow6_reg2 (o : Opcode) (r q : Reg) (low : BitVec 6) : field (encodeLow6 o r q low) 6 3 = regBits q :=
  field_eq fun i hi => by
    simp only [encodeLow6, BitVec.getLsbD_append]
    rw [if_neg (by omega), if_pos (by omega)]
    congr 1
    omega

theorem encodeLow6_low (o : Opcode) (r q : Reg) (low : BitVec 6) : field (encodeLow6 o r q low) 0 6 = low :=
  field_eq fun i hi => by
    simp only [encodeLow6, BitVec.getLsbD_append]
    rw [if_pos (by omega)]
    congr 1
    omega

theorem encodeOpReg_opcode (o : Opcode) (dr sr1 sr2 : Reg) : field (encodeOpReg o dr sr1 sr2) 12 4 = opcodeBits o :=
  field_eq fun i hi => by
    simp only [encodeOpReg, BitVec.getLsbD_append]
    rw [if_neg (by omega), if_neg (by omega), if_neg (by omega), if_neg (by omega), if_neg (by omega)]
    congr 1
    omega

theorem encodeOpImm_opcode (o : Opcode) (dr sr1 : Reg) (imm : BitVec 5) :
    field (encodeOpImm o dr sr1 imm) 12 4 = opcodeBits o :=
  field_eq fun i hi => by
    simp only [encodeOpImm, BitVec.getLsbD_append]
    rw [if_neg (by omega), if_neg (by omega), if_neg (by omega), if_neg (by omega)]
    congr 1
    omega

theorem encodeTrap_opcode (v : BitVec 8) : field (encodeTrap v) 12 4 = opcodeBits .trap :=
  field_eq fun i hi => by
    simp only [encodeTrap, BitVec.getLsbD_append]
    rw [if_neg (by omega), if_neg (by omega)]
    congr 1
    omega

theorem encodeTrap_vector (v : BitVec 8) : field (encodeTrap v) 0 8 = v :=
  field_eq fun i hi => by
    simp only [encodeTrap, BitVec.getLsbD_append]
    rw [if_pos (by omega)]
    congr 1
    omega

end Sys2Proof
end

