-- ==== Sys2Proof/Laws/State.lean ====
section
/-! SUPPORT. What each update of the state does to each field, true by definition; and the register file's read-after-write
laws. -/

namespace Sys2Proof.Machine

/-! ## setReg -/

@[simp] theorem State.setReg_regs (s : State) (r : Reg) (v : Word) : (s.setReg r v).regs = s.regs.set r v := rfl
@[simp] theorem State.setReg_pc (s : State) (r : Reg) (v : Word) : (s.setReg r v).pc = s.pc := rfl
@[simp] theorem State.setReg_cond (s : State) (r : Reg) (v : Word) : (s.setReg r v).cond = s.cond := rfl
@[simp] theorem State.setReg_running (s : State) (r : Reg) (v : Word) : (s.setReg r v).running = s.running := rfl
@[simp] theorem State.setReg_fatal (s : State) (r : Reg) (v : Word) : (s.setReg r v).fatal = s.fatal := rfl
@[simp] theorem State.setReg_mem (s : State) (r : Reg) (v : Word) : (s.setReg r v).mem = s.mem := rfl
@[simp] theorem State.setReg_out (s : State) (r : Reg) (v : Word) : (s.setReg r v).out = s.out := rfl
@[simp] theorem State.setReg_rst (s : State) (r : Reg) (v : Word) : (s.setReg r v).rst = s.rst := rfl
@[simp] theorem State.setReg_polls (s : State) (r : Reg) (v : Word) : (s.setReg r v).polls = s.polls := rfl
@[simp] theorem State.setReg_pollDraws (s : State) (r : Reg) (v : Word) : (s.setReg r v).pollDraws = s.pollDraws := rfl
@[simp] theorem State.setReg_getcs (s : State) (r : Reg) (v : Word) : (s.setReg r v).getcs = s.getcs := rfl
@[simp] theorem State.setReg_getcDraws (s : State) (r : Reg) (v : Word) : (s.setReg r v).getcDraws = s.getcDraws := rfl
@[simp] theorem State.setReg_outputFails (s : State) (r : Reg) (v : Word) : (s.setReg r v).outputFails = s.outputFails := rfl
@[simp] theorem State.word_setReg (s : State) (r : Reg) (v : Word) (q : Word) : (s.setReg r v).word q = s.word q := rfl

/-! ## setPc -/

@[simp] theorem State.setPc_regs (s : State) (t : Word) : (s.setPc t).regs = s.regs := rfl
@[simp] theorem State.setPc_pc (s : State) (t : Word) : (s.setPc t).pc = t := rfl
@[simp] theorem State.setPc_cond (s : State) (t : Word) : (s.setPc t).cond = s.cond := rfl
@[simp] theorem State.setPc_running (s : State) (t : Word) : (s.setPc t).running = s.running := rfl
@[simp] theorem State.setPc_fatal (s : State) (t : Word) : (s.setPc t).fatal = s.fatal := rfl
@[simp] theorem State.setPc_mem (s : State) (t : Word) : (s.setPc t).mem = s.mem := rfl
@[simp] theorem State.setPc_out (s : State) (t : Word) : (s.setPc t).out = s.out := rfl
@[simp] theorem State.setPc_rst (s : State) (t : Word) : (s.setPc t).rst = s.rst := rfl
@[simp] theorem State.setPc_polls (s : State) (t : Word) : (s.setPc t).polls = s.polls := rfl
@[simp] theorem State.setPc_pollDraws (s : State) (t : Word) : (s.setPc t).pollDraws = s.pollDraws := rfl
@[simp] theorem State.setPc_getcs (s : State) (t : Word) : (s.setPc t).getcs = s.getcs := rfl
@[simp] theorem State.setPc_getcDraws (s : State) (t : Word) : (s.setPc t).getcDraws = s.getcDraws := rfl
@[simp] theorem State.setPc_outputFails (s : State) (t : Word) : (s.setPc t).outputFails = s.outputFails := rfl
@[simp] theorem State.reg_setPc (s : State) (t : Word) (q : Reg) : (s.setPc t).reg q = s.reg q := rfl
@[simp] theorem State.word_setPc (s : State) (t : Word) (q : Word) : (s.setPc t).word q = s.word q := rfl

/-! ## setCond -/

@[simp] theorem State.setCond_regs (s : State) (c : Cond) : (s.setCond c).regs = s.regs := rfl
@[simp] theorem State.setCond_pc (s : State) (c : Cond) : (s.setCond c).pc = s.pc := rfl
@[simp] theorem State.setCond_cond (s : State) (c : Cond) : (s.setCond c).cond = c := rfl
@[simp] theorem State.setCond_running (s : State) (c : Cond) : (s.setCond c).running = s.running := rfl
@[simp] theorem State.setCond_fatal (s : State) (c : Cond) : (s.setCond c).fatal = s.fatal := rfl
@[simp] theorem State.setCond_mem (s : State) (c : Cond) : (s.setCond c).mem = s.mem := rfl
@[simp] theorem State.setCond_out (s : State) (c : Cond) : (s.setCond c).out = s.out := rfl
@[simp] theorem State.setCond_rst (s : State) (c : Cond) : (s.setCond c).rst = s.rst := rfl
@[simp] theorem State.setCond_polls (s : State) (c : Cond) : (s.setCond c).polls = s.polls := rfl
@[simp] theorem State.setCond_pollDraws (s : State) (c : Cond) : (s.setCond c).pollDraws = s.pollDraws := rfl
@[simp] theorem State.setCond_getcs (s : State) (c : Cond) : (s.setCond c).getcs = s.getcs := rfl
@[simp] theorem State.setCond_getcDraws (s : State) (c : Cond) : (s.setCond c).getcDraws = s.getcDraws := rfl
@[simp] theorem State.setCond_outputFails (s : State) (c : Cond) : (s.setCond c).outputFails = s.outputFails := rfl
@[simp] theorem State.reg_setCond (s : State) (c : Cond) (q : Reg) : (s.setCond c).reg q = s.reg q := rfl
@[simp] theorem State.word_setCond (s : State) (c : Cond) (q : Word) : (s.setCond c).word q = s.word q := rfl

/-! ## setWord -/

@[simp] theorem State.setWord_regs (s : State) (a v : Word) : (s.setWord a v).regs = s.regs := rfl
@[simp] theorem State.setWord_pc (s : State) (a v : Word) : (s.setWord a v).pc = s.pc := rfl
@[simp] theorem State.setWord_cond (s : State) (a v : Word) : (s.setWord a v).cond = s.cond := rfl
@[simp] theorem State.setWord_running (s : State) (a v : Word) : (s.setWord a v).running = s.running := rfl
@[simp] theorem State.setWord_fatal (s : State) (a v : Word) : (s.setWord a v).fatal = s.fatal := rfl
@[simp] theorem State.setWord_mem (s : State) (a v : Word) : (s.setWord a v).mem = s.mem.writeWord a v := rfl
@[simp] theorem State.setWord_out (s : State) (a v : Word) : (s.setWord a v).out = s.out := rfl
@[simp] theorem State.setWord_rst (s : State) (a v : Word) : (s.setWord a v).rst = s.rst := rfl
@[simp] theorem State.setWord_polls (s : State) (a v : Word) : (s.setWord a v).polls = s.polls := rfl
@[simp] theorem State.setWord_pollDraws (s : State) (a v : Word) : (s.setWord a v).pollDraws = s.pollDraws := rfl
@[simp] theorem State.setWord_getcs (s : State) (a v : Word) : (s.setWord a v).getcs = s.getcs := rfl
@[simp] theorem State.setWord_getcDraws (s : State) (a v : Word) : (s.setWord a v).getcDraws = s.getcDraws := rfl
@[simp] theorem State.setWord_outputFails (s : State) (a v : Word) : (s.setWord a v).outputFails = s.outputFails := rfl
@[simp] theorem State.reg_setWord (s : State) (a v : Word) (q : Reg) : (s.setWord a v).reg q = s.reg q := rfl

/-! ## pushOut -/

@[simp] theorem State.pushOut_regs (s : State) (b : Byte) : (s.pushOut b).regs = s.regs := rfl
@[simp] theorem State.pushOut_pc (s : State) (b : Byte) : (s.pushOut b).pc = s.pc := rfl
@[simp] theorem State.pushOut_cond (s : State) (b : Byte) : (s.pushOut b).cond = s.cond := rfl
@[simp] theorem State.pushOut_running (s : State) (b : Byte) : (s.pushOut b).running = s.running := rfl
@[simp] theorem State.pushOut_fatal (s : State) (b : Byte) : (s.pushOut b).fatal = s.fatal := rfl
@[simp] theorem State.pushOut_mem (s : State) (b : Byte) : (s.pushOut b).mem = s.mem := rfl
@[simp] theorem State.pushOut_out (s : State) (b : Byte) : (s.pushOut b).out = s.out ++ [b] := rfl
@[simp] theorem State.pushOut_rst (s : State) (b : Byte) : (s.pushOut b).rst = s.rst := rfl
@[simp] theorem State.pushOut_polls (s : State) (b : Byte) : (s.pushOut b).polls = s.polls := rfl
@[simp] theorem State.pushOut_pollDraws (s : State) (b : Byte) : (s.pushOut b).pollDraws = s.pollDraws := rfl
@[simp] theorem State.pushOut_getcs (s : State) (b : Byte) : (s.pushOut b).getcs = s.getcs := rfl
@[simp] theorem State.pushOut_getcDraws (s : State) (b : Byte) : (s.pushOut b).getcDraws = s.getcDraws := rfl
@[simp] theorem State.pushOut_outputFails (s : State) (b : Byte) : (s.pushOut b).outputFails = s.outputFails := rfl
@[simp] theorem State.reg_pushOut (s : State) (b : Byte) (q : Reg) : (s.pushOut b).reg q = s.reg q := rfl
@[simp] theorem State.word_pushOut (s : State) (b : Byte) (q : Word) : (s.pushOut b).word q = s.word q := rfl

/-! ## stopRunning -/

@[simp] theorem State.stopRunning_regs (s : State) : (s.stopRunning).regs = s.regs := rfl
@[simp] theorem State.stopRunning_pc (s : State) : (s.stopRunning).pc = s.pc := rfl
@[simp] theorem State.stopRunning_cond (s : State) : (s.stopRunning).cond = s.cond := rfl
@[simp] theorem State.stopRunning_running (s : State) : (s.stopRunning).running = false := rfl
@[simp] theorem State.stopRunning_fatal (s : State) : (s.stopRunning).fatal = s.fatal := rfl
@[simp] theorem State.stopRunning_mem (s : State) : (s.stopRunning).mem = s.mem := rfl
@[simp] theorem State.stopRunning_out (s : State) : (s.stopRunning).out = s.out := rfl
@[simp] theorem State.stopRunning_rst (s : State) : (s.stopRunning).rst = s.rst := rfl
@[simp] theorem State.stopRunning_polls (s : State) : (s.stopRunning).polls = s.polls := rfl
@[simp] theorem State.stopRunning_pollDraws (s : State) : (s.stopRunning).pollDraws = s.pollDraws := rfl
@[simp] theorem State.stopRunning_getcs (s : State) : (s.stopRunning).getcs = s.getcs := rfl
@[simp] theorem State.stopRunning_getcDraws (s : State) : (s.stopRunning).getcDraws = s.getcDraws := rfl
@[simp] theorem State.stopRunning_outputFails (s : State) : (s.stopRunning).outputFails = s.outputFails := rfl
@[simp] theorem State.reg_stopRunning (s : State) (q : Reg) : (s.stopRunning).reg q = s.reg q := rfl
@[simp] theorem State.word_stopRunning (s : State) (q : Word) : (s.stopRunning).word q = s.word q := rfl

/-! ## setFatal -/

@[simp] theorem State.setFatal_regs (s : State) (c : FatalCode) : (s.setFatal c).regs = s.regs := rfl
@[simp] theorem State.setFatal_pc (s : State) (c : FatalCode) : (s.setFatal c).pc = s.pc := rfl
@[simp] theorem State.setFatal_cond (s : State) (c : FatalCode) : (s.setFatal c).cond = s.cond := rfl
@[simp] theorem State.setFatal_running (s : State) (c : FatalCode) : (s.setFatal c).running = s.running := rfl
@[simp] theorem State.setFatal_fatal (s : State) (c : FatalCode) : (s.setFatal c).fatal = some c := rfl
@[simp] theorem State.setFatal_mem (s : State) (c : FatalCode) : (s.setFatal c).mem = s.mem := rfl
@[simp] theorem State.setFatal_out (s : State) (c : FatalCode) : (s.setFatal c).out = s.out := rfl
@[simp] theorem State.setFatal_rst (s : State) (c : FatalCode) : (s.setFatal c).rst = s.rst := rfl
@[simp] theorem State.setFatal_polls (s : State) (c : FatalCode) : (s.setFatal c).polls = s.polls := rfl
@[simp] theorem State.setFatal_pollDraws (s : State) (c : FatalCode) : (s.setFatal c).pollDraws = s.pollDraws := rfl
@[simp] theorem State.setFatal_getcs (s : State) (c : FatalCode) : (s.setFatal c).getcs = s.getcs := rfl
@[simp] theorem State.setFatal_getcDraws (s : State) (c : FatalCode) : (s.setFatal c).getcDraws = s.getcDraws := rfl
@[simp] theorem State.setFatal_outputFails (s : State) (c : FatalCode) : (s.setFatal c).outputFails = s.outputFails := rfl
@[simp] theorem State.reg_setFatal (s : State) (c : FatalCode) (q : Reg) : (s.setFatal c).reg q = s.reg q := rfl
@[simp] theorem State.word_setFatal (s : State) (c : FatalCode) (q : Word) : (s.setFatal c).word q = s.word q := rfl

/-! ## The register file -/

/-- A register read after a write: the value written, or the old one for another register (10_state.md R30). -/
@[simp] theorem RegFile.get_set (f : RegFile) (r q : Reg) (v : Word) :
    (f.set r v).get q = if q = r then v else f.get q := by
  cases r <;> cases q <;> rfl

/-- The same law through the state's accessors. -/
@[simp] theorem State.reg_setReg (s : State) (r q : Reg) (v : Word) :
    (s.setReg r v).reg q = if q = r then v else s.reg q :=
  RegFile.get_set s.regs r q v

/-- Two register files that read alike are one. -/
theorem RegFile.ext_get {f g : RegFile} (h : ∀ r, f.get r = g.get r) : f = g := by
  cases f; cases g
  simp only [RegFile.mk.injEq]
  exact ⟨h .R0, h .R1, h .R2, h .R3, h .R4, h .R5, h .R6, h .R7⟩

/-! ## writeResult -/

@[simp] theorem reg_writeResult (s : State) (dr q : Reg) (v : Word) :
    (writeResult dr v s).reg q = if q = dr then v else s.reg q :=
  State.reg_setReg s dr q v

@[simp] theorem cond_writeResult (s : State) (dr : Reg) (v : Word) : (writeResult dr v s).cond = condOf v := rfl

@[simp] theorem word_writeResult (s : State) (dr : Reg) (v : Word) (a : Word) : (writeResult dr v s).word a = s.word a := rfl

/-- A result changes `regs` and `cond` only. -/
theorem writeResult_frame (s : State) (dr : Reg) (v : Word) :
    writeResult dr v s = { s with regs := (writeResult dr v s).regs, cond := (writeResult dr v s).cond } := rfl

/-- The flag of a result is never NONE (10_state.md R33). -/
theorem condOf_ne_none (v : Word) : condOf v ≠ .none := by
  unfold condOf
  split
  · decide
  · split <;> decide

end Sys2Proof.Machine
end

