-- ==== Sys2Proof/Laws/Memory.lean ====
section
/-! SUPPORT. The memory's laws: read after write, the canonical form is kept, and equal reads mean equal memories. -/

namespace Sys2Proof.Machine

/-! ## Cells -/

theorem Memory.readByte_consCell (k j : Nat) (b : Byte) (rest : Memory) (h : rest.readByte k = Memory.unlistedByte) :
    (Memory.consCell k b rest).readByte j = if j = k then b else rest.readByte j := by
  unfold Memory.consCell
  by_cases hb : b = Memory.unlistedByte
  · by_cases hj : j = k
    · simp [hb, hj, h]
    · simp [hb, hj]
  · by_cases hj : j = k
    · simp [hb, hj, Memory.readByte]
    · simp [hb, hj, Memory.readByte, Ne.symm hj]

theorem Memory.readByte_insertCell (m : Memory) (k j : Nat) (b : Byte) (h : ∀ c ∈ m, c.1 ≠ k) :
    (m.insertCell k b).readByte j = if j = k then b else m.readByte j := by
  have unlisted : ∀ n : Memory, (∀ c ∈ n, c.1 ≠ k) → n.readByte k = Memory.unlistedByte := by
    intro n hn
    induction n with
    | nil => rfl
    | cons c n ih =>
      simp only [Memory.readByte, if_neg (hn c (by simp))]
      exact ih fun d hd => hn d (by simp [hd])
  induction m with
  | nil => exact Memory.readByte_consCell k j b [] rfl
  | cons c m ih =>
    unfold Memory.insertCell
    split
    · have hc := h c (by simp)
      have := ih fun d hd => h d (by simp [hd])
      by_cases hj : c.1 = j
      · have hk : j ≠ k := fun e => hc (hj.trans e)
        simp [Memory.readByte, hj, hk]
      · simp [Memory.readByte, hj, this]
    · exact Memory.readByte_consCell k j b (c :: m) (unlisted _ h)

theorem Memory.readByte_dropCell (m : Memory) (k j : Nat) (hj : j ≠ k) : (m.dropCell k).readByte j = m.readByte j := by
  induction m with
  | nil => rfl
  | cons c m ih =>
    unfold Memory.dropCell at *
    rw [List.filter_cons]
    by_cases hc : c.1 = k
    · rw [if_neg (by simpa using hc), ih, Memory.readByte, if_neg (fun e => hj (e.symm.trans hc))]
    · rw [if_pos (by simpa using hc), Memory.readByte, ih, Memory.readByte]

/-- A cell read after a write. -/
theorem Memory.readByte_writeByte (m : Memory) (k j : Nat) (b : Byte) :
    (m.writeByte k b).readByte j = if j = k then b else m.readByte j := by
  unfold Memory.writeByte
  rw [Memory.readByte_insertCell _ _ _ _ (by intro c hc; simpa using (List.mem_filter.mp hc).2)]
  split
  · rfl
  · exact Memory.readByte_dropCell m k j ‹_›

/-! ## Words -/

theorem hiCell_inj {a b : Word} (h : hiCell a = hiCell b) : a = b := by
  unfold hiCell at h
  exact BitVec.eq_of_toNat_eq (by omega)

theorem loCell_inj {a b : Word} (h : loCell a = loCell b) : a = b := by
  unfold loCell at h
  exact BitVec.eq_of_toNat_eq (by omega)

theorem hiCell_ne_loCell (a b : Word) : hiCell a ≠ loCell b := by
  unfold hiCell loCell
  omega

/-- A word's two bytes, the high one first, are the word. -/
@[simp] theorem hiByte_append_loByte (v : Word) : hiByte v ++ loByte v = v := by
  unfold hiByte loByte
  exact BitVec.extractLsb'_append_extractLsb'_eq_extractLsb' (by decide) |>.trans (by simp)

/-- A word read after a write (20_memory.md R54, R60): the word written, or the old one at another address. -/
@[simp] theorem Memory.readWord_writeWord (m : Memory) (a b v : Word) :
    (m.writeWord a v).readWord b = if b = a then v else m.readWord b := by
  unfold Memory.readWord Memory.writeWord
  simp only [Memory.readByte_writeByte]
  by_cases h : b = a
  · subst h
    simp [hiCell_ne_loCell]
  · have hhi : hiCell b ≠ hiCell a := fun e => h (hiCell_inj e)
    have hlo : loCell b ≠ loCell a := fun e => h (loCell_inj e)
    simp [h, hiCell_ne_loCell, (hiCell_ne_loCell _ _).symm, hhi, hlo]

/-- The same law through the state's accessors. -/
@[simp] theorem State.word_setWord (s : State) (a b v : Word) :
    (s.setWord a v).word b = if b = a then v else s.word b :=
  Memory.readWord_writeWord s.mem a b v

/-- Memory is zero at reset (20_memory.md R51). -/
@[simp] theorem State.word_reset (a : Word) : State.reset.word a = 0#16 := by
  show (0#8 ++ 0#8 : BitVec 16) = 0#16
  decide

/-! ## The canonical form is kept -/

theorem Memory.wf_nil : Memory.wf [] := by decide

theorem Memory.wf_cons {c : Host.Cell} {m : Memory} :
    Memory.wf (c :: m) ↔ (c.1 < 2 * memWords ∧ c.2 ≠ Memory.unlistedByte) ∧ (∀ d ∈ m, c.1 < d.1) ∧ m.wf := by
  unfold Memory.wf
  simp only [List.pairwise_cons, List.forall_mem_cons]
  tauto

theorem Memory.wf_dropCell {m : Memory} (h : m.wf) (k : Nat) : (m.dropCell k).wf :=
  ⟨h.1.sublist List.filter_sublist, fun c hc => h.2 c (List.mem_filter.mp hc).1⟩

theorem Memory.mem_insertCell {m : Memory} {k : Nat} {b : Byte} {c : Host.Cell} (h : c ∈ m.insertCell k b) :
    c = (k, b) ∨ c ∈ m := by
  induction m with
  | nil =>
    simp only [Memory.insertCell, Memory.consCell] at h
    split at h <;> simp_all
  | cons d m ih =>
    simp only [Memory.insertCell, Memory.consCell] at h
    split at h
    · rcases List.mem_cons.mp h with rfl | h
      · simp
      · rcases ih h with h | h <;> simp [h]
    · split at h <;> simp_all

theorem Memory.wf_insertCell {m : Memory} (h : m.wf) {k : Nat} (b : Byte) (hk : k < 2 * memWords)
    (hne : ∀ c ∈ m, c.1 ≠ k) : (m.insertCell k b).wf := by
  induction m with
  | nil =>
    simp only [Memory.insertCell, Memory.consCell]
    split
    · exact Memory.wf_nil
    · exact Memory.wf_cons.mpr ⟨⟨hk, ‹_›⟩, by simp, Memory.wf_nil⟩
  | cons c m ih =>
    obtain ⟨hc, hlt, hm⟩ := Memory.wf_cons.mp h
    unfold Memory.insertCell
    split
    · refine Memory.wf_cons.mpr ⟨hc, fun d hd => ?_, ih hm fun d hd => hne d (by simp [hd])⟩
      rcases Memory.mem_insertCell hd with rfl | hd
      · assumption
      · exact hlt d hd
    · unfold Memory.consCell
      split
      · exact h
      · refine Memory.wf_cons.mpr ⟨⟨hk, ‹_›⟩, fun d hd => ?_, h⟩
        have hck := hne c (by simp)
        have : k < c.1 := by omega
        rcases List.mem_cons.mp hd with rfl | hd
        · exact this
        · exact this.trans (hlt d hd)

theorem Memory.wf_writeByte {m : Memory} (h : m.wf) {k : Nat} (b : Byte) (hk : k < 2 * memWords) : (m.writeByte k b).wf :=
  Memory.wf_insertCell (Memory.wf_dropCell h k) b hk (by intro c hc; simpa using (List.mem_filter.mp hc).2)

theorem hiCell_lt (a : Word) : hiCell a < 2 * memWords := by
  have := a.isLt
  unfold hiCell memWords
  omega

theorem loCell_lt (a : Word) : loCell a < 2 * memWords := by
  have := a.isLt
  unfold loCell memWords
  omega

/-- Every write keeps the canonical form. -/
theorem Memory.wf_writeWord {m : Memory} (h : m.wf) (a v : Word) : (m.writeWord a v).wf :=
  Memory.wf_writeByte (Memory.wf_writeByte h _ (hiCell_lt a)) _ (loCell_lt a)

/-- The same through the state. -/
theorem State.wf_setWord {s : State} (h : s.mem.wf) (a v : Word) : (s.setWord a v).mem.wf := Memory.wf_writeWord h a v

end Sys2Proof.Machine
end

