-- ==== Sys2Proof/Laws/Operands.lean ====
section
/-! SUPPORT. Sign extension and zero extension are `BitVec`'s own. -/

namespace Sys2Proof.Machine

/-- `sext_N` is sign extension, for the widths the ISA has and every other up to a word (00_scope.md R8). -/
theorem sext_eq_signExtend {n : Nat} (v : BitVec n) (h16 : n ≤ 16) : sext v = v.signExtend 16 := by
  apply BitVec.eq_of_getLsbD_eq
  intro i hi
  rw [BitVec.getLsbD_signExtend]
  have ones : ∀ j < 16, (0xFFFF#16).getLsbD j = true := by decide
  unfold sext
  by_cases hv : v.msb = true
  · rw [if_pos hv]
    by_cases hin : i < n
    · simp [hin, hi]
    · simp [hin, hi, hv, ones (i - n) (by omega)]
  · rw [if_neg hv]
    by_cases hin : i < n
    · simp [hin, hi]
    · simp [hin, hi, hv, BitVec.getLsbD_of_ge v i (by omega)]

/-- `zext_N` with N = CHAR_BITS is zero extension (00_scope.md R9). -/
@[simp] theorem zextChar_eq_setWidth (b : Byte) : zextChar b = b.setWidth 16 := by simp [zextChar, config]

end Sys2Proof.Machine
end

