-- ==== Sys2Proof/Laws/Ops.lean ====
section
/-! SUPPORT. What each shared operation can do, said once: the sequencing laws, the console primitives, memory reads and
the fetch. `Attempt.Post` is the form the rest is said in. -/

namespace Sys2Proof.Machine

/-! ## Sequencing -/

section Sequencing

variable {α β : Type}

@[simp] theorem Attempt.andThen_done (a : α) (s : State) (k : α → State → Attempt β) :
    (Attempt.done a s).andThen k = k a s := rfl

@[simp] theorem Attempt.andThen_raised (s : State) (k : α → State → Attempt β) :
    (Attempt.raised s).andThen k = .raised s := rfl

@[simp] theorem Attempt.andThen_stuck (f : Fault) (k : α → State → Attempt β) :
    (Attempt.stuck f).andThen k = .stuck f := rfl

@[simp] theorem Attempt.into_done (a : α) (s : State) (k : α → State → Result) :
    (Attempt.done a s).into k = k a s := rfl

@[simp] theorem Attempt.into_raised (s : State) (k : α → State → Result) :
    (Attempt.raised s).into k = .next s := rfl

@[simp] theorem Attempt.into_stuck (f : Fault) (k : α → State → Result) :
    (Attempt.stuck f).into k = .fault f := rfl

theorem Attempt.into_andThen (r : Attempt α) (k : α → State → Attempt β) (k' : β → State → Result) :
    (r.andThen k).into k' = r.into fun a s => (k a s).into k' := by
  cases r <;> rfl

/-- If `r` completes, `Q` holds of its value and state; if it raises, `E` holds of the state. -/
def Attempt.Post (r : Attempt α) (Q : α → State → Prop) (E : State → Prop) : Prop :=
  match r with
  | .done a s => Q a s
  | .raised s => E s
  | .stuck _ => True

@[simp] theorem Attempt.post_done (a : α) (s : State) (Q : α → State → Prop) (E : State → Prop) :
    (Attempt.done a s).Post Q E ↔ Q a s := Iff.rfl

@[simp] theorem Attempt.post_raised (s : State) (Q : α → State → Prop) (E : State → Prop) :
    (Attempt.raised s : Attempt α).Post Q E ↔ E s := Iff.rfl

@[simp] theorem Attempt.post_stuck (f : Fault) (Q : α → State → Prop) (E : State → Prop) :
    (Attempt.stuck f : Attempt α).Post Q E := True.intro

theorem Attempt.Post.mono {r : Attempt α} {Q Q' : α → State → Prop} {E E' : State → Prop} (h : r.Post Q E)
    (hQ : ∀ a s, Q a s → Q' a s) (hE : ∀ s, E s → E' s) : r.Post Q' E' := by
  cases r
  · exact hQ _ _ h
  · exact hE _ h
  · trivial

theorem Attempt.Post.andThen {r : Attempt α} {k : α → State → Attempt β} {P : α → State → Prop}
    {Q : β → State → Prop} {E : State → Prop} (h : r.Post P E) (hk : ∀ a s, P a s → (k a s).Post Q E) :
    (r.andThen k).Post Q E := by
  cases r
  · exact hk _ _ h
  · exact h
  · trivial

/-- From an operation to a whole step: whatever the step's next state, `E` holds of it. -/
theorem Attempt.Post.into {r : Attempt α} {k : α → State → Result} {Q : α → State → Prop} {E : State → Prop}
    (h : r.Post Q E) (hk : ∀ a s t, Q a s → k a s = .next t → E t) {t : State} (ht : r.into k = .next t) : E t := by
  cases r
  · exact hk _ _ _ h ht
  · cases ht
    exact h
  · cases ht

/-- From an operation to a whole instruction made of it alone. -/
theorem Attempt.Post.finish {r : Attempt Unit} {E : State → Prop} (h : r.Post (fun _ => E) E) {t : State}
    (ht : r.finish = .next t) : E t :=
  h.into (fun _ _ _ hs hst => by cases hst; exact hs) ht

end Sequencing

/-! ## The console primitives: each answers from its own list and changes nothing but that list -/

theorem consPoll_frame (s : State) :
    (consPoll s).2 = { s with polls := (consPoll s).2.polls, pollDraws := (consPoll s).2.pollDraws } := by
  unfold consPoll
  split <;> rfl

theorem consGetc_frame (s : State) :
    (consGetc s).2 = { s with getcs := (consGetc s).2.getcs, getcDraws := (consGetc s).2.getcDraws } := by
  unfold consGetc
  split <;> rfl

theorem consAck_frame (s : State) : (consAck s).2 = { s with outputFails := (consAck s).2.outputFails } := by
  unfold consAck
  split <;> rfl

/-- With CHAR_BITS at 8 a character is the whole byte. -/
@[simp] theorem charOf_eq (b : Byte) : charOf b = b := by simp [charOf, config]

/-- A write adds its character to `out`, and completes or raises CONS_WRITE_FAIL. -/
theorem putc_post (b : Byte) (s : State) :
    (putc b s).Post
      (fun _ t => t = { s with out := s.out ++ [b], outputFails := t.outputFails })
      (fun t => t = { s with out := s.out ++ [b], fatal := some .consWriteFail, outputFails := t.outputFails }) := by
  have h := consAck_frame (s.pushOut b)
  unfold putc
  rw [charOf_eq]
  generalize consAck (s.pushOut b) = r at h ⊢
  obtain ⟨_ | _, t⟩ := r <;> simp only at h ⊢
  · exact h
  · exact (congrArg (State.setFatal · .consWriteFail) h).trans rfl

/-- A flush completes without a trace, or raises CONS_WRITE_FAIL. -/
theorem flush_post (s : State) :
    (flush s).Post
      (fun _ t => t = { s with outputFails := t.outputFails })
      (fun t => t = { s with fatal := some .consWriteFail, outputFails := t.outputFails }) := by
  have h := consAck_frame s
  unfold flush
  generalize consAck s = r at h ⊢
  obtain ⟨_ | _, t⟩ := r <;> simp only at h ⊢
  · exact h
  · exact (congrArg (State.setFatal · .consWriteFail) h).trans rfl

/-- A blocking read completes with a character, or raises CONS_READ_FAIL; only the coming answers change. -/
theorem readChar_post (s : State) :
    (readChar s).Post
      (fun _ t => t = { s with getcs := t.getcs, getcDraws := t.getcDraws })
      (fun t => t = { s with fatal := some .consReadFail, getcs := t.getcs, getcDraws := t.getcDraws }) := by
  have h := consGetc_frame s
  unfold readChar
  generalize consGetc s = r at h ⊢
  obtain ⟨_ | _ | _, t⟩ := r <;> simp only at h ⊢
  · exact h
  · exact (congrArg (State.setFatal · .consReadFail) h).trans rfl
  · trivial

/-- With no failure to come, a write is accepted. -/
theorem putc_ok (b : Byte) {s : State} (h : s.outputFails = []) : putc b s = .done () (s.pushOut b) := by
  unfold putc consAck
  rw [charOf_eq, State.pushOut_outputFails, h]

/-- With no failure to come, a flush is accepted. -/
theorem flush_ok {s : State} (h : s.outputFails = []) : flush s = .done () s := by
  unfold flush consAck
  rw [h]

/-- A write that is due to fail raises with its character in `out`. -/
theorem putc_fail (b : Byte) {s : State} {rest : List Nat} (h : s.outputFails = 0 :: rest) :
    putc b s = .raised { s with out := s.out ++ [b], outputFails := rest, fatal := some .consWriteFail } := by
  unfold putc consAck
  rw [charOf_eq, State.pushOut_outputFails, h]
  rfl

/-- A flush that is due to fail raises. -/
theorem flush_fail {s : State} {rest : List Nat} (h : s.outputFails = 0 :: rest) :
    flush s = .raised { s with outputFails := rest, fatal := some .consWriteFail } := by
  unfold flush consAck
  rw [h]
  rfl

/-- A write that is not yet due to fail is accepted, and brings the failure one nearer. -/
theorem putc_nearer (b : Byte) {s : State} {n : Nat} {rest : List Nat} (h : s.outputFails = (n + 1) :: rest) :
    putc b s = .done () { s with outputFails := n :: rest, out := s.out ++ [b] } := by
  unfold putc consAck
  rw [charOf_eq, State.pushOut_outputFails, h]
  rfl

theorem readChar_char {s : State} {b : Byte} {rest : List GetcAnswer} (h : s.getcs = .char b :: rest) :
    readChar s = .done b { s with getcs := rest } := by
  unfold readChar consGetc
  rw [h]

theorem readChar_fail {s : State} {rest : List GetcAnswer} (h : s.getcs = .fail :: rest) :
    readChar s = .raised { s with getcs := rest, fatal := some .consReadFail } := by
  unfold readChar consGetc
  rw [h]
  rfl

theorem readChar_never {s : State} {rest : List GetcAnswer} (h : s.getcs = .never :: rest) :
    readChar s = .stuck .readNeverAnswers := by
  unfold readChar consGetc
  rw [h]

/-! ## Memory reads -/

/-- The two keyboard words stand at different addresses (20_memory.md R59). -/
theorem kbsr_ne_kbdr : config.kbsrAddr ≠ config.kbdrAddr := by decide

theorem memRead_elsewhere {a : Word} (h : a ≠ config.kbsrAddr) (s : State) : memRead a s = .done (s.word a) s := by
  rw [memRead, if_neg h]

theorem memRead_kbsr (s : State) :
    memRead config.kbsrAddr s = (refreshKeyboard s).andThen fun _ s => .done (s.word config.kbsrAddr) s := by
  rw [memRead, if_pos rfl]

/-- The refresh completes having written KBSR, and KBDR only when a key was pending, or raises KBD_POLL_FAIL with no
memory word changed (20_memory.md R55). -/
theorem refreshKeyboard_post (s : State) :
    (refreshKeyboard s).Post
      (fun _ t => t = { s with mem := t.mem, polls := t.polls, pollDraws := t.pollDraws } ∧
        ((∃ b, t.mem = (s.mem.writeWord config.kbsrAddr 0x8000#16).writeWord config.kbdrAddr (zextChar b)) ∨
          t.mem = s.mem.writeWord config.kbsrAddr 0x0000#16))
      (fun t => t = { s with fatal := some .kbdPollFail, polls := t.polls, pollDraws := t.pollDraws }) := by
  have h := consPoll_frame s
  unfold refreshKeyboard
  generalize consPoll s = r at h ⊢
  obtain ⟨_ | b | _, t⟩ := r <;> simp only at h ⊢
  · refine ⟨by rw [h]; rfl, .inr ?_⟩
    rw [State.setWord_mem, h]
  · refine ⟨by rw [h]; rfl, .inl ⟨b, ?_⟩⟩
    rw [State.setWord_mem, State.setWord_mem, h]
  · exact (congrArg (State.setFatal · .kbdPollFail) h).trans rfl

/-- A read completes with the word its end state stores at `a`, and changes nothing but the two keyboard words and the
coming poll answers, and those only at KBSR_ADDR; or it raises KBD_POLL_FAIL (20_memory.md R55, R56). -/
theorem memRead_post (a : Word) (s : State) :
    (memRead a s).Post
      (fun v t => v = t.word a ∧ t = { s with mem := t.mem, polls := t.polls, pollDraws := t.pollDraws } ∧
        (s.mem.wf → t.mem.wf) ∧
        (∀ b, b ≠ config.kbsrAddr → b ≠ config.kbdrAddr → t.word b = s.word b) ∧
        (a ≠ config.kbsrAddr → t = s))
      (fun t => a = config.kbsrAddr ∧
        t = { s with fatal := some .kbdPollFail, polls := t.polls, pollDraws := t.pollDraws }) := by
  by_cases ha : a = config.kbsrAddr
  · subst ha
    rw [memRead_kbsr]
    refine ((refreshKeyboard_post s).mono (fun _ _ h => h) fun t h => ⟨rfl, h⟩).andThen fun _ t ⟨ht, hm⟩ => ?_
    refine ⟨rfl, ht, fun hw => ?_, fun b h1 h2 => ?_, fun h => absurd rfl h⟩
    · rcases hm with ⟨b, hm⟩ | hm <;> rw [hm]
      · exact Memory.wf_writeWord (Memory.wf_writeWord hw _ _) _ _
      · exact Memory.wf_writeWord hw _ _
    · unfold State.word
      rcases hm with ⟨c, hm⟩ | hm <;> simp [hm, h1, h2]
  · rw [memRead_elsewhere ha]
    exact ⟨rfl, rfl, id, fun _ _ _ => rfl, fun _ => rfl⟩

/-! ## The fetch -/

theorem fetch_elsewhere {s : State} (h : s.pc ≠ config.kbsrAddr) :
    fetch s = .done (s.word s.pc) (s.setPc (s.pc + 1#16)) := by
  rw [fetch, memRead_elsewhere h]
  rfl

/-- A fetch moves pc past the word it read and otherwise does what its read does; if the read raises, pc stays
(30_encoding.md R80). -/
theorem fetch_post (s : State) :
    (fetch s).Post
      (fun _ t => t = { s with pc := s.pc + 1#16, mem := t.mem, polls := t.polls, pollDraws := t.pollDraws } ∧
        (s.mem.wf → t.mem.wf) ∧ (∀ b, b ≠ config.kbsrAddr → b ≠ config.kbdrAddr → t.word b = s.word b))
      (fun t => t = { s with fatal := some .kbdPollFail, polls := t.polls, pollDraws := t.pollDraws }) := by
  unfold fetch
  refine ((memRead_post s.pc s).mono (fun _ _ h => h) fun t h => h.2).andThen fun v t ⟨_, ht, hw, hb, _⟩ => ?_
  refine ⟨?_, hw, hb⟩
  have hpc : t.pc = s.pc := by rw [ht]
  rw [hpc]
  exact (congrArg (State.setPc · (s.pc + 1#16)) ht).trans rfl

/-! ## The step -/

/-- While the core may step, a step is a fetch and then the decoded instruction (R80). -/
theorem step_mayStep {s : State} (h1 : s.rst = false) (h2 : s.fatal = none) (h3 : s.running = true) :
    step s = (fetch s).into fun w s' => exec (decode w) s' := by
  simp [step, h1, h2, h3]

/-- A step that has a next state began in a core that may step. -/
theorem mayStep_of_next {s t : State} (h : step s = .next t) : s.rst = false ∧ s.fatal = none ∧ s.running = true := by
  unfold step at h
  split at h
  · cases h
  · split at h
    · cases h
    · split at h
      · refine ⟨?_, ‹_›, ‹_›⟩
        simpa using ‹¬s.rst = true›
      · cases h

/-- Every step with a next state is a failed fetch or a fetch followed by one instruction. -/
theorem step_cases {s t : State} (h : step s = .next t) :
    fetch s = .raised t ∨ ∃ w u, fetch s = .done w u ∧ exec (decode w) u = .next t := by
  obtain ⟨h1, h2, h3⟩ := mayStep_of_next h
  rw [step_mayStep h1 h2 h3] at h
  rcases hf : fetch s with ⟨w, u⟩ | u | f <;> rw [hf] at h
  · exact .inr ⟨w, u, rfl, h⟩
  · cases h
    exact .inl rfl
  · cases h

end Sys2Proof.Machine
end

