-- ==== Sys2Proof/Laws/PerInstr.lean ====
section
/-! SUPPORT. What is said of every instruction as syntax, one lemma per constructor: the family `EncodeOpcode` says that
the canonical word of an instruction carries its operation's opcode in bits 15:12 (30_encoding.md R82, R89). -/

namespace Sys2Proof.Laws.EncodeOpcode

/-- The canonical word's top four bits are the operation's opcode. -/
def Statement (i : Instr) : Prop := field (encode i) 12 4 = opcodeBits i.opcode

theorem br (n z p : Bool) (off : BitVec 9) : Statement (.br n z p off) :=
  field_eq fun i hi => by
    simp only [encode, Instr.opcode, BitVec.getLsbD_append]
    rw [if_neg (by omega), if_neg (by omega), if_neg (by omega), if_neg (by omega)]
    congr 1
    omega

theorem addReg (dr sr1 sr2 : Reg) : Statement (.addReg dr sr1 sr2) := encodeOpReg_opcode _ _ _ _

theorem addImm (dr sr1 : Reg) (imm : BitVec 5) : Statement (.addImm dr sr1 imm) := encodeOpImm_opcode _ _ _ _

theorem ld (dr : Reg) (off : BitVec 9) : Statement (.ld dr off) := encodeOff9_opcode _ _ _

theorem st (sr : Reg) (off : BitVec 9) : Statement (.st sr off) := encodeOff9_opcode _ _ _

theorem jsr (off : BitVec 11) : Statement (.jsr off) :=
  field_eq fun i hi => by
    simp only [encode, Instr.opcode, BitVec.getLsbD_append]
    rw [if_neg (by omega), if_neg (by omega)]
    congr 1
    omega

theorem jsrr (base : Reg) : Statement (.jsrr base) := by cases base <;> rfl

theorem andReg (dr sr1 sr2 : Reg) : Statement (.andReg dr sr1 sr2) := encodeOpReg_opcode _ _ _ _

theorem andImm (dr sr1 : Reg) (imm : BitVec 5) : Statement (.andImm dr sr1 imm) := encodeOpImm_opcode _ _ _ _

theorem ldr (dr base : Reg) (off : BitVec 6) : Statement (.ldr dr base off) := encodeLow6_opcode _ _ _ _

theorem str (sr base : Reg) (off : BitVec 6) : Statement (.str sr base off) := encodeLow6_opcode _ _ _ _

theorem rti : Statement .rti := rfl

theorem not (dr sr : Reg) : Statement (.not dr sr) := encodeLow6_opcode _ _ _ _

theorem ldi (dr : Reg) (off : BitVec 9) : Statement (.ldi dr off) := encodeOff9_opcode _ _ _

theorem sti (sr : Reg) (off : BitVec 9) : Statement (.sti sr off) := encodeOff9_opcode _ _ _

theorem jmp (base : Reg) : Statement (.jmp base) := by cases base <;> rfl

theorem reserved : Statement .reserved := rfl

theorem lea (dr : Reg) (off : BitVec 9) : Statement (.lea dr off) := encodeOff9_opcode _ _ _

theorem trap (vect : BitVec 8) : Statement (.trap vect) := encodeTrap_opcode _

theorem getc : Statement .getc := encodeTrap_opcode _

theorem out : Statement .out := encodeTrap_opcode _

theorem puts : Statement .puts := encodeTrap_opcode _

theorem inp : Statement .inp := encodeTrap_opcode _

theorem putsp : Statement .putsp := encodeTrap_opcode _

theorem halt : Statement .halt := encodeTrap_opcode _

end Sys2Proof.Laws.EncodeOpcode
end

