-- ==== Sys2Proof/Laws/Trap.lean ====
section
/-! SUPPORT. What the trap routines can do: the loops of the string routines, and each routine's frame. -/

namespace Sys2Proof.Machine

/-! ## Writing a list of characters -/

/-- Either every character is written, or those up to a failing write are. -/
theorem putAll_post (l : List Byte) (s : State) :
    (putAll l s).Post
      (fun _ t => t = { s with out := s.out ++ l, outputFails := t.outputFails })
      (fun t => ∃ k, t = { s with out := s.out ++ l.take k, fatal := some .consWriteFail, outputFails := t.outputFails }) := by
  induction l generalizing s with
  | nil => simp [putAll]
  | cons b l ih =>
    refine ((putc_post b s).mono (fun _ _ h => h) fun t h => ⟨1, by rw [h]; simp⟩).andThen fun _ t ht => ?_
    refine (ih t).mono (fun _ u hu => ?_) fun u ⟨k, hu⟩ => ⟨k + 1, ?_⟩ <;> rw [hu, ht] <;> simp

theorem putAll_ok (l : List Byte) {s : State} (h : s.outputFails = []) :
    putAll l s = .done () { s with out := s.out ++ l } := by
  induction l generalizing s with
  | nil => simp [putAll]
  | cons b l ih =>
    rw [putAll, putc_ok b h, Attempt.andThen_done, ih (by simpa using h)]
    simp [State.pushOut]

/-- With a failure `g` answers away, a list is written whole and the failure is that much nearer, or it raises. -/
theorem putAll_nearer (l : List Byte) {s : State} {g : Nat} {rest : List Nat} (h : s.outputFails = g :: rest) :
    (putAll l s).Post (fun _ t => ∃ g', g' + l.length = g ∧ t.outputFails = g' :: rest) (fun _ => True) := by
  induction l generalizing s g with
  | nil => exact ⟨g, rfl, h⟩
  | cons b l ih =>
    cases g with
    | zero => rw [putAll, putc_fail b h]; trivial
    | succ n =>
      rw [putAll, putc_nearer b h, Attempt.andThen_done]
      refine (ih rfl).mono (fun _ t ⟨g', hg, ht⟩ => ⟨g', ?_, ht⟩) fun _ h => h
      rw [List.length_cons]
      omega

/-- What a failure `g` answers away does to a list of characters: within the list, the `g` before it and its own
are in `out` and the rest are not; past it, the list is written and the failure is that much nearer. -/
theorem putAll_fails (l : List Byte) {s : State} {g : Nat} {rest : List Nat} (h : s.outputFails = g :: rest) :
    (g < l.length → putAll l s =
      .raised { s with out := s.out ++ l.take (g + 1), outputFails := rest, fatal := some .consWriteFail }) ∧
    (l.length ≤ g → putAll l s = .done () { s with out := s.out ++ l, outputFails := (g - l.length) :: rest }) := by
  induction l generalizing s g with
  | nil => simp [putAll, ← h]
  | cons b l ih =>
    cases g with
    | zero => simp [putAll, putc_fail b h]
    | succ n =>
      rw [putAll, putc_nearer b h, Attempt.andThen_done]
      obtain ⟨hlt, hle⟩ := ih (s := { s with outputFails := n :: rest, out := s.out ++ [b] }) rfl
      constructor
      · intro hl
        rw [hlt (by simpa using hl)]
        simp
      · intro hl
        rw [hle (by simpa using hl)]
        simp

theorem putAll_not_stuck (l : List Byte) (s : State) (f : Fault) : putAll l s ≠ .stuck f := by
  induction l generalizing s with
  | nil => simp [putAll]
  | cons b l ih =>
    rw [putAll]
    have : ∀ g, putc b s ≠ .stuck g := by
      intro g
      unfold putc raiseFatal
      split <;> simp
    rcases hp : putc b s with ⟨_, t⟩ | t | g
    · simpa using ih t
    · simp
    · exact absurd hp (this g)

/-! ## The string loop -/

/-- A string is read with no side effect: TRAP_STRING_READ_POLLS is false (20_memory.md R57). -/
@[simp] theorem strRead_eq (a : Word) (s : State) : strRead a s = .done (s.word a) s := rfl

/-- The loop only adds characters to `out`, and may raise CONS_WRITE_FAIL. -/
theorem putString_post (chars : Word → List Byte) (fuel : Nat) (a : Word) (s : State) :
    (putString chars fuel a s).Post
      (fun _ t => ∃ w, t = { s with out := s.out ++ w, outputFails := t.outputFails })
      (fun t => ∃ w, t = { s with out := s.out ++ w, fatal := some .consWriteFail, outputFails := t.outputFails }) := by
  induction fuel generalizing a s with
  | zero => trivial
  | succ fuel ih =>
    rw [putString, strRead_eq, Attempt.andThen_done]
    split
    · exact ⟨[], by simp⟩
    · refine ((putAll_post _ s).mono (fun _ _ h => h) fun t ⟨k, h⟩ => ⟨_, h⟩).andThen fun _ t ht => ?_
      refine (ih _ t).mono (fun _ u ⟨w, hu⟩ => ⟨chars (s.word a) ++ w, ?_⟩) fun u ⟨w, hu⟩ => ⟨chars (s.word a) ++ w, ?_⟩ <;>
        rw [hu, ht] <;> simp

theorem StringAt.congr {s t : State} (h : ∀ a, t.word a = s.word a) {a : Word} {ws : List Word} (hs : StringAt s a ws) :
    StringAt t a ws := by
  induction ws generalizing a with
  | nil => exact (h a).trans hs
  | cons w ws ih => exact ⟨(h a).trans hs.1, hs.2.1, ih hs.2.2⟩

theorem StringAt.word_add {s : State} {a : Word} {ws : List Word} (h : StringAt s a ws) :
    s.word (a + BitVec.ofNat 16 ws.length) = 0#16 ∧ ∀ i < ws.length, s.word (a + BitVec.ofNat 16 i) ≠ 0#16 := by
  induction ws generalizing a with
  | nil => exact ⟨by simpa [StringAt] using h, by simp⟩
  | cons w ws ih =>
    have step : ∀ n, a + BitVec.ofNat 16 (n + 1) = a + 1#16 + BitVec.ofNat 16 n := by
      intro n
      rw [BitVec.ofNat_add]
      ac_rfl
    obtain ⟨hz, hn⟩ := ih h.2.2
    refine ⟨by rw [List.length_cons, step]; exact hz, fun i hi => ?_⟩
    cases i with
    | zero => simpa [h.1] using h.2.1
    | succ i =>
      rw [step]
      exact hn i (by simpa using hi)

/-- A string that ends is shorter than the memory. -/
theorem StringAt.length_lt {s : State} {a : Word} {ws : List Word} (h : StringAt s a ws) : ws.length < memWords := by
  obtain ⟨hz, hn⟩ := h.word_add
  by_contra hlen
  unfold memWords at hlen
  refine hn (ws.length - 65536) (by omega) ?_
  rw [show BitVec.ofNat 16 (ws.length - 65536) = BitVec.ofNat 16 ws.length from BitVec.eq_of_toNat_eq (by simp; omega)]
  exact hz

/-- With no failure to come, a string that ends is written whole. -/
theorem putString_ok (chars : Word → List Byte) {fuel : Nat} {a : Word} {s : State} {ws : List Word}
    (hs : StringAt s a ws) (ho : s.outputFails = []) (hf : ws.length < fuel) :
    putString chars fuel a s = .done () { s with out := s.out ++ ws.flatMap chars } := by
  induction ws generalizing a s fuel with
  | nil =>
    obtain ⟨fuel, rfl⟩ : ∃ n, fuel = n + 1 := ⟨fuel - 1, by simp at hf; omega⟩
    rw [putString, strRead_eq, Attempt.andThen_done, if_pos (show s.word a = 0#16 from hs)]
    simp
  | cons w ws ih =>
    obtain ⟨fuel, rfl⟩ : ∃ n, fuel = n + 1 := ⟨fuel - 1, by simp at hf; omega⟩
    obtain ⟨hw, hne, hs⟩ := hs
    rw [putString, strRead_eq, Attempt.andThen_done, hw, if_neg hne, putAll_ok _ ho, Attempt.andThen_done]
    have hs' : StringAt { s with out := s.out ++ chars w } (a + 1#16) ws :=
      StringAt.congr (s := s) (t := { s with out := s.out ++ chars w }) (fun _ => rfl) hs
    refine (ih hs' ho (by simpa using hf)).trans ?_
    simp

/-- What a failure `g` answers away does to a string that ends: as `putAll_fails`, on the characters of the whole string. -/
theorem putString_fails (chars : Word → List Byte) {ws : List Word} {fuel : Nat} {a : Word} {s : State} {g : Nat}
    {rest : List Nat} (h : s.outputFails = g :: rest) (hs : StringAt s a ws) (hf : ws.length < fuel) :
    (g < (ws.flatMap chars).length → putString chars fuel a s = .raised { s with
      out := s.out ++ (ws.flatMap chars).take (g + 1), outputFails := rest, fatal := some .consWriteFail }) ∧
    ((ws.flatMap chars).length ≤ g → putString chars fuel a s = .done () { s with
      out := s.out ++ ws.flatMap chars, outputFails := (g - (ws.flatMap chars).length) :: rest }) := by
  induction ws generalizing a s fuel g with
  | nil =>
    obtain ⟨fuel, rfl⟩ : ∃ n, fuel = n + 1 := ⟨fuel - 1, by simp at hf; omega⟩
    rw [putString, strRead_eq, Attempt.andThen_done, if_pos (show s.word a = 0#16 from hs)]
    simp [← h]
  | cons w ws ih =>
    obtain ⟨fuel, rfl⟩ : ∃ n, fuel = n + 1 := ⟨fuel - 1, by simp at hf; omega⟩
    obtain ⟨hw, hne, hs⟩ := hs
    rw [putString, strRead_eq, Attempt.andThen_done, hw, if_neg hne]
    obtain ⟨plt, ple⟩ := putAll_fails (chars w) h
    simp only [List.flatMap_cons, List.length_append]
    by_cases hg : g < (chars w).length
    · rw [plt hg, Attempt.andThen_raised]
      exact ⟨fun _ => by rw [List.take_append_of_le_length (by omega)], fun hl => by omega⟩
    · rw [ple (by omega), Attempt.andThen_done]
      have hs' := StringAt.congr (s := s)
        (t := { s with out := s.out ++ chars w, outputFails := (g - (chars w).length) :: rest }) (fun _ => rfl) hs
      obtain ⟨ilt, ile⟩ := ih rfl hs' (fuel := fuel) (by simpa using hf)
      constructor
      · intro hl
        rw [ilt (by omega), List.take_append, List.take_of_length_le (by omega : (chars w).length ≤ g + 1),
          Nat.sub_add_comm (by omega : (chars w).length ≤ g)]
        simp
      · intro hl
        rw [ile (by omega)]
        simp [Nat.sub_sub]

/-- PUTS and PUTSP are given rounds enough for every string that ends. -/
theorem StringAt.length_lt_fuel {s : State} {a : Word} {ws : List Word} (h : StringAt s a ws) :
    ws.length < stringFuel s := by
  have hl := h.length_lt
  have hm : memWords ≤ memWords * (s.polls.length + 1) := Nat.le_mul_of_pos_right _ (by omega)
  unfold stringFuel
  omega

/-- A string with no zero word anywhere is never written whole. -/
theorem putString_no_zero (chars : Word → List Byte) (fuel : Nat) (a : Word) {s : State} (hz : ∀ b, s.word b ≠ 0#16)
    (ho : s.outputFails = []) : putString chars fuel a s = .stuck .stringNeverEnds := by
  induction fuel generalizing a s with
  | zero => rfl
  | succ fuel ih =>
    rw [putString, strRead_eq, Attempt.andThen_done, if_neg (hz a), putAll_ok _ ho, Attempt.andThen_done]
    exact ih _ hz ho

/-- If the loop runs out of rounds, it met no zero word in them. -/
theorem putString_stuck_words (chars : Word → List Byte) {fuel : Nat} {a : Word} {s : State} {f : Fault}
    (h : putString chars fuel a s = .stuck f) : ∀ i < fuel, s.word (a + BitVec.ofNat 16 i) ≠ 0#16 := by
  induction fuel generalizing a s with
  | zero => simp
  | succ fuel ih =>
    rw [putString, strRead_eq, Attempt.andThen_done] at h
    split at h
    · simp at h
    · have hp := putAll_post (chars (s.word a)) s
      rcases hpa : putAll (chars (s.word a)) s with ⟨_, t⟩ | t | g
      · rw [hpa] at h hp
        have ht : t = _ := hp
        have := ih h
        intro i hi
        cases i with
        | zero => simpa using ‹¬s.word a = 0#16›
        | succ i =>
          have hi := this i (by omega)
          rw [ht] at hi
          rw [BitVec.ofNat_add, show a + (BitVec.ofNat 16 i + BitVec.ofNat 16 1) = a + 1#16 + BitVec.ofNat 16 i by ac_rfl]
          exact hi
      · rw [hpa] at h
        simp at h
      · exact absurd hpa (putAll_not_stuck _ _ g)

/-- With a failure to come, the loop does not run out of more rounds than writes succeed before it. -/
theorem putString_fail_not_stuck (chars : Word → List Byte) (hc : ∀ c, chars c ≠ []) {fuel g : Nat} {a : Word} {s : State}
    {rest : List Nat} (ho : s.outputFails = g :: rest) (hf : g < fuel) (f : Fault) :
    putString chars fuel a s ≠ .stuck f := by
  induction fuel generalizing a s g with
  | zero => omega
  | succ fuel ih =>
    rw [putString, strRead_eq, Attempt.andThen_done]
    split
    · simp
    · have hp := putAll_nearer (chars (s.word a)) ho
      rcases hpa : putAll (chars (s.word a)) s with ⟨_, t⟩ | t | k
      · rw [hpa] at hp
        obtain ⟨g', hg, ht⟩ := hp
        have := List.length_pos_iff.mpr (hc (s.word a))
        exact ih ht (by omega)
      · simp
      · exact absurd hpa (putAll_not_stuck _ _ k)

/-- The rounds PUTS and PUTSP are given decide how their loop ends: if it runs out of them, no word of memory is zero and
no write is to fail, so it never ends (43_trap.md R174, R176). -/
theorem putString_fuel_enough (chars : Word → List Byte) (hc : ∀ c, chars c ≠ []) {a : Word} {s : State} {f : Fault}
    (h : putString chars (stringFuel s) a s = .stuck f) : (∀ b, s.word b ≠ 0#16) ∧ s.outputFails = [] := by
  constructor
  · intro b
    have hlt : (b - a).toNat < stringFuel s := by
      have := (b - a).isLt
      have hm : memWords ≤ memWords * (s.polls.length + 1) := Nat.le_mul_of_pos_right _ (by omega)
      unfold stringFuel
      unfold memWords at hm ⊢
      omega
    have := putString_stuck_words chars h _ hlt
    rwa [BitVec.ofNat_toNat, BitVec.setWidth_eq, BitVec.add_comm, BitVec.sub_add_cancel] at this
  · cases ho : s.outputFails with
    | nil => rfl
    | cons g rest =>
      refine absurd h (putString_fail_not_stuck chars hc ho ?_ f)
      unfold stringFuel
      rw [ho, List.headD_cons]
      omega

theorem putsChars_ne_nil (c : Word) : putsChars c ≠ [] := by simp [putsChars]

theorem putspChars_ne_nil (c : Word) : putspChars c ≠ [] := by
  unfold putspChars
  split <;> simp

/-! ## The routines' frames -/

/-- What any trap routine leaves as it was (43_trap.md R171); it may write R0, clear Running, set the fatal status, add to
`out` and take console answers. -/
structure TrapFrame (s t : State) : Prop where
  pc : t.pc = s.pc
  cond : t.cond = s.cond
  mem : t.mem = s.mem
  rst : t.rst = s.rst
  polls : t.polls = s.polls
  pollDraws : t.pollDraws = s.pollDraws
  regs : ∀ r, r ≠ .R0 → t.reg r = s.reg r
  out : ∃ w, t.out = s.out ++ w
  code : t.fatal = s.fatal ∨ t.fatal = some .consReadFail ∨ t.fatal = some .consWriteFail

/-- What a routine leaves that only writes to the console. -/
structure OutputFrame (s t : State) : Prop extends TrapFrame s t where
  allRegs : t.regs = s.regs
  running : t.running = s.running
  getcs : t.getcs = s.getcs
  getcDraws : t.getcDraws = s.getcDraws
  outCode : t.fatal = s.fatal ∨ t.fatal = some .consWriteFail

theorem TrapFrame.trans {s t u : State} (h : TrapFrame s t) (k : TrapFrame t u) : TrapFrame s u where
  pc := k.pc.trans h.pc
  cond := k.cond.trans h.cond
  mem := k.mem.trans h.mem
  rst := k.rst.trans h.rst
  polls := k.polls.trans h.polls
  pollDraws := k.pollDraws.trans h.pollDraws
  regs r hr := (k.regs r hr).trans (h.regs r hr)
  out := by
    obtain ⟨v, hv⟩ := h.out
    obtain ⟨w, hw⟩ := k.out
    exact ⟨v ++ w, by rw [hw, hv, List.append_assoc]⟩
  code := by
    rcases k.code with e | e
    · rw [e]
      exact h.code
    · exact .inr e

theorem OutputFrame.trans {s t u : State} (h : OutputFrame s t) (k : OutputFrame t u) : OutputFrame s u where
  toTrapFrame := h.toTrapFrame.trans k.toTrapFrame
  allRegs := k.allRegs.trans h.allRegs
  running := k.running.trans h.running
  getcs := k.getcs.trans h.getcs
  getcDraws := k.getcDraws.trans h.getcDraws
  outCode := by
    rcases k.outCode with e | e
    · rw [e]
      exact h.outCode
    · exact .inr e

theorem OutputFrame.of_eq {s t : State} {w : List Byte} {f : Option FatalCode} (hf : f = s.fatal ∨ f = some .consWriteFail)
    (h : t = { s with out := s.out ++ w, fatal := f, outputFails := t.outputFails }) : OutputFrame s t := by
  rw [h]
  exact
    { pc := rfl, cond := rfl, mem := rfl, rst := rfl, polls := rfl, pollDraws := rfl, regs := fun _ _ => rfl,
      out := ⟨w, rfl⟩, code := hf.imp id .inr, allRegs := rfl, running := rfl, getcs := rfl, getcDraws := rfl, outCode := hf }

/-- Operations that only write to the console compose. -/
theorem OutputFrame.seq {α β : Type} {s : State} {r : Attempt α} {k : α → State → Attempt β}
    (h : r.Post (fun _ t => OutputFrame s t) (OutputFrame s))
    (hk : ∀ a t, (k a t).Post (fun _ u => OutputFrame t u) (OutputFrame t)) :
    (r.andThen k).Post (fun _ t => OutputFrame s t) (OutputFrame s) :=
  h.andThen fun a t ht => (hk a t).mono (fun _ _ hu => ht.trans hu) fun _ hu => ht.trans hu

/-- Trap operations compose. -/
theorem TrapFrame.seq {α β : Type} {s : State} {r : Attempt α} {k : α → State → Attempt β}
    (h : r.Post (fun _ t => TrapFrame s t) (TrapFrame s))
    (hk : ∀ a t, (k a t).Post (fun _ u => TrapFrame t u) (TrapFrame t)) :
    (r.andThen k).Post (fun _ t => TrapFrame s t) (TrapFrame s) :=
  h.andThen fun a t ht => (hk a t).mono (fun _ _ hu => ht.trans hu) fun _ hu => ht.trans hu

theorem OutputFrame.weaken {α : Type} {s : State} {r : Attempt α} (h : r.Post (fun _ t => OutputFrame s t) (OutputFrame s)) :
    r.Post (fun _ t => TrapFrame s t) (TrapFrame s) :=
  h.mono (fun _ _ ht => ht.toTrapFrame) fun _ ht => ht.toTrapFrame

theorem putc_frame (b : Byte) (s : State) : (putc b s).Post (fun _ t => OutputFrame s t) (OutputFrame s) :=
  (putc_post b s).mono (fun _ _ h => .of_eq (.inl rfl) h)
    fun _ h => .of_eq (.inr rfl) h

theorem flush_frame (s : State) : (flush s).Post (fun _ t => OutputFrame s t) (OutputFrame s) :=
  (flush_post s).mono (fun _ t h => .of_eq (w := []) (.inl rfl) (by simpa using h))
    fun t h => .of_eq (w := []) (.inr rfl) (by simpa using h)

theorem putAll_frame (l : List Byte) (s : State) : (putAll l s).Post (fun _ t => OutputFrame s t) (OutputFrame s) :=
  (putAll_post l s).mono (fun _ _ h => .of_eq (.inl rfl) h) fun _ ⟨_, h⟩ => .of_eq (.inr rfl) h

theorem putString_frame (chars : Word → List Byte) (fuel : Nat) (a : Word) (s : State) :
    (putString chars fuel a s).Post (fun _ t => OutputFrame s t) (OutputFrame s) :=
  (putString_post chars fuel a s).mono (fun _ _ ⟨_, h⟩ => .of_eq (.inl rfl) h) fun _ ⟨_, h⟩ => .of_eq (.inr rfl) h

theorem readChar_frame (s : State) : (readChar s).Post (fun _ t => TrapFrame s t) (TrapFrame s) := by
  refine (readChar_post s).mono (fun _ t h => ?_) fun t h => ?_ <;> rw [h]
  · exact ⟨rfl, rfl, rfl, rfl, rfl, rfl, fun _ _ => rfl, ⟨[], by simp⟩, .inl rfl⟩
  · exact ⟨rfl, rfl, rfl, rfl, rfl, rfl, fun _ _ => rfl, ⟨[], by simp⟩, .inr (.inl rfl)⟩

theorem setR0_frame (s : State) (v : Word) : TrapFrame s (s.setReg .R0 v) :=
  ⟨rfl, rfl, rfl, rfl, rfl, rfl, fun r hr => by simp [hr], ⟨[], by simp⟩, .inl rfl⟩

theorem outRoutine_frame (s : State) : (outRoutine s).Post (fun _ t => OutputFrame s t) (OutputFrame s) :=
  OutputFrame.seq (putc_frame _ s) fun _ t => flush_frame t

theorem putsRoutine_frame (s : State) : (putsRoutine s).Post (fun _ t => OutputFrame s t) (OutputFrame s) :=
  OutputFrame.seq (putString_frame _ _ _ s) fun _ t => flush_frame t

theorem putspRoutine_frame (s : State) : (putspRoutine s).Post (fun _ t => OutputFrame s t) (OutputFrame s) :=
  OutputFrame.seq (putString_frame _ _ _ s) fun _ t => flush_frame t

theorem getcRoutine_frame (s : State) : (getcRoutine s).Post (fun _ t => TrapFrame s t) (TrapFrame s) :=
  TrapFrame.seq (readChar_frame s) fun _ t => setR0_frame t _

theorem inRoutine_frame (s : State) : (inRoutine s).Post (fun _ t => TrapFrame s t) (TrapFrame s) :=
  TrapFrame.seq (OutputFrame.weaken (putAll_frame _ s)) fun _ t =>
  TrapFrame.seq (OutputFrame.weaken (flush_frame t)) fun _ t =>
  TrapFrame.seq (readChar_frame t) fun _ t =>
  TrapFrame.seq (OutputFrame.weaken (putc_frame _ t)) fun _ t =>
  TrapFrame.seq (OutputFrame.weaken (flush_frame t)) fun _ t => setR0_frame t _

theorem haltRoutine_frame (s : State) : (haltRoutine s).Post (fun _ t => TrapFrame s t) (TrapFrame s) :=
  TrapFrame.seq (OutputFrame.weaken (flush_frame s)) fun _ t =>
    ⟨rfl, rfl, rfl, rfl, rfl, rfl, fun _ _ => rfl, ⟨[], by simp⟩, .inl rfl⟩

theorem TrapFrame.refl (s : State) : TrapFrame s s :=
  ⟨rfl, rfl, rfl, rfl, rfl, rfl, fun _ _ => rfl, ⟨[], by simp⟩, .inl rfl⟩

/-- Whatever its vector, a TRAP leaves what `TrapFrame` says (43_trap.md R171). -/
theorem trapRoutine_frame (v : BitVec 8) (s : State) : (trapRoutine v s).Post (fun _ t => TrapFrame s t) (TrapFrame s) := by
  unfold trapRoutine
  split
  · exact getcRoutine_frame s
  · exact OutputFrame.weaken (outRoutine_frame s)
  · exact OutputFrame.weaken (putsRoutine_frame s)
  · exact inRoutine_frame s
  · exact OutputFrame.weaken (putspRoutine_frame s)
  · exact haltRoutine_frame s
  · exact TrapFrame.refl s

end Sys2Proof.Machine
end

