-- ==== Sys2Proof/Tests/Slice0.lean ====
section
/-! SUPPORT. Tests: what well-formedness refuses, decoding of words written out from the spec's layouts, single steps on
small states (the vectors of 95_test_vectors.md, named by their ids), the loader, and for every obligation with
hypotheses a witness that meets them. -/

namespace Sys2Proof.Tests

open Sys2Proof Sys2Proof.Machine

/-! ## Helpers -/

/-- A state with the given words stored. -/
def withWords (l : List (Word × Word)) (s : State) : State := l.foldl (fun s p => s.setWord p.1 p.2) s

/-- A state that holds register values. -/
def withRegs (l : List (Reg × Word)) (s : State) : State := l.foldl (fun s p => s.setReg p.1 p.2) s

/-- The reset state with the word `w` at `a` and pc there. -/
def at_ (a w : Word) : State := (State.reset.setWord a w).setPc a

/-- `p` holds of the state after one step, which completes. -/
def after (s : State) (p : State → Bool) : Bool :=
  match step s with
  | .next t => p t
  | .fault _ => false
  | .refused _ => false

/-- The outcome is a next state. -/
def completes : Result → Bool
  | .next _ => true
  | .fault _ => false
  | .refused _ => false

theorem next_of_completes {r : Result} (h : completes r = true) : ∃ t, r = .next t := by
  cases r
  · exact ⟨_, rfl⟩
  · cases h
  · cases h

/-- `p` holds of the state after two steps. -/
def after2 (s : State) (p : State → Bool) : Bool := after s fun t => after t p

/-! ## Well-formedness -/

theorem test_wf_refuses_trap_routine_vectors :
    (Instr.trap 0x20#8).wellFormed = false ∧ (Instr.trap 0x21#8).wellFormed = false ∧
      (Instr.trap 0x22#8).wellFormed = false ∧ (Instr.trap 0x23#8).wellFormed = false ∧
      (Instr.trap 0x24#8).wellFormed = false ∧ (Instr.trap 0x25#8).wellFormed = false := by decide

theorem test_wf_accepts_other_vectors :
    (Instr.trap 0x1F#8).wellFormed = true ∧ (Instr.trap 0x26#8).wellFormed = true ∧ Instr.getc.wellFormed = true := by decide

/-! ## Decoding: every constructor, from a word laid out by 30_encoding.md section 4 -/

theorem test_decode_br : decode 0b0000_101_111111110#16 = .br true false true 0x1FE#9 := by decide
theorem test_decode_addReg : decode 0b0001_011_100_0_00_101#16 = .addReg .R3 .R4 .R5 := by decide
theorem test_decode_addReg_ignored : decode 0b0001_000_001_0_11_000#16 = .addReg .R0 .R1 .R0 := by decide
theorem test_decode_addImm : decode 0b0001_001_001_1_11111#16 = .addImm .R1 .R1 0x1F#5 := by decide
theorem test_decode_ld : decode 0b0010_001_000000010#16 = .ld .R1 2#9 := by decide
theorem test_decode_st : decode 0b0011_001_000000011#16 = .st .R1 3#9 := by decide
theorem test_decode_jsr : decode 0b0100_1_10000000000#16 = .jsr 0x400#11 := by decide
theorem test_decode_jsrr : decode 0b0100_0_00_010_000000#16 = .jsrr .R2 := by decide
theorem test_decode_jsrr_ignored : decode 0b0100_0_11_111_111111#16 = .jsrr .R7 := by decide
theorem test_decode_andReg : decode 0b0101_011_001_0_00_010#16 = .andReg .R3 .R1 .R2 := by decide
theorem test_decode_andImm : decode 0b0101_001_001_1_10000#16 = .andImm .R1 .R1 0x10#5 := by decide
theorem test_decode_ldr : decode 0b0110_010_011_111111#16 = .ldr .R2 .R3 0x3F#6 := by decide
theorem test_decode_str : decode 0b0111_100_101_001010#16 = .str .R4 .R5 10#6 := by decide
theorem test_decode_rti : decode 0x8000#16 = .rti ∧ decode 0x8FFF#16 = .rti := by decide
theorem test_decode_not : decode 0b1001_100_101_111111#16 = .not .R4 .R5 ∧ decode 0b1001_100_101_000000#16 = .not .R4 .R5 := by decide
theorem test_decode_ldi : decode 0b1010_000_000000001#16 = .ldi .R0 1#9 := by decide
theorem test_decode_sti : decode 0b1011_010_111111110#16 = .sti .R2 0x1FE#9 := by decide
theorem test_decode_jmp : decode 0b1100_000_011_000000#16 = .jmp .R3 ∧ decode 0b1100_111_011_111111#16 = .jmp .R3 := by decide
theorem test_decode_reserved : decode 0xD000#16 = .reserved ∧ decode 0xDABC#16 = .reserved := by decide
theorem test_decode_lea : decode 0b1110_001_111111111#16 = .lea .R1 0x1FF#9 := by decide
theorem test_decode_trap :
    decode 0xF01F#16 = .trap 0x1F#8 ∧ decode 0xF026#16 = .trap 0x26#8 ∧ decode 0xF0FF#16 = .trap 0xFF#8 := by decide
theorem test_decode_routines :
    decode 0xF020#16 = .getc ∧ decode 0xF021#16 = .out ∧ decode 0xF022#16 = .puts ∧ decode 0xF023#16 = .inp ∧
      decode 0xF024#16 = .putsp ∧ decode 0xF025#16 = .halt ∧ decode 0xFF25#16 = .halt := by decide
theorem test_decode_zero_is_branch_never : decode 0x0000#16 = .br false false false 0#9 := by decide

theorem test_encode_words :
    encode (.not .R0 .R0) = 0x903F#16 ∧ encode (.jmp .R7) = 0xC1C0#16 ∧ encode (.addReg .R0 .R1 .R2) = 0x1042#16 ∧
      encode (.jsrr .R2) = 0x4080#16 ∧ encode .halt = 0xF025#16 := by decide

theorem test_table_word_length : decodeTableWord 16 0x1042 = some (.addReg .R0 .R1 .R2) ∧ decodeTableWord 24 0x1042 = none := by
  decide

/-! ## Single steps: operate -/

theorem test_W1_sign_extension :
    sext 0b11011#5 = 0xFFFB#16 ∧ sext 0b01111#5 = 0x000F#16 ∧ sext 0b100000#6 = 0xFFE0#16 ∧ sext 0x100#9 = 0xFF00#16 ∧
      sext 0x3FF#11 = 0x03FF#16 ∧ sext 0x400#11 = 0xFC00#16 := by decide

theorem test_W3_add_wraps_to_zero :
    after (withRegs [(.R1, 0xFFFF#16), (.R2, 0x0001#16)] (at_ 0x3000#16 0x1042#16)) (fun t =>
      t.reg .R0 = 0x0000#16 && t.cond = .zero && t.pc = 0x3001#16 && t.reg .R1 = 0xFFFF#16) = true := by decide

theorem test_V_OP2_add_source_is_destination :
    after (withRegs [(.R1, 0x4001#16)] (at_ 0x3000#16 0x1241#16)) (fun t => t.reg .R1 = 0x8002#16 && t.cond = .neg) = true := by
  decide

theorem test_W2_add_immediate :
    after (withRegs [(.R1, 0x000A#16)] (at_ 0x3000#16 0x1065#16)) (fun t =>
      t.reg .R0 = 0x000F#16 && t.cond = .pos && t.reg .R1 = 0x000A#16) = true := by decide

theorem test_V_OP5_add_most_negative_immediate :
    after (withRegs [(.R0, 0x0010#16)] (at_ 0x3000#16 0x1030#16)) (fun t => t.reg .R0 = 0x0000#16 && t.cond = .zero) = true := by
  decide

theorem test_V_OP8_and_register :
    after (withRegs [(.R1, 0xF0F0#16), (.R2, 0x3C3C#16)] (at_ 0x3000#16 0x5642#16)) (fun t =>
      t.reg .R3 = 0x3030#16 && t.cond = .pos) = true := by decide

theorem test_V_OP9_and_immediate_is_extended :
    after (withRegs [(.R1, 0x1234#16)] (at_ 0x3000#16 0x5270#16)) (fun t => t.reg .R1 = 0x1230#16 && t.cond = .pos) = true := by
  decide

theorem test_V_OP15_not_ignores_low_bits :
    after (withRegs [(.R5, 0x00FF#16)] (at_ 0x3000#16 0x9940#16)) (fun t => t.reg .R4 = 0xFF00#16 && t.cond = .neg) = true := by
  decide

/-! ## Single steps: control -/

theorem test_V_CT1_branch_taken :
    after ((at_ 0x3004#16 0x03FD#16).setCond .pos) (fun t => t.pc = 0x3002#16 && t.cond = .pos) = true := by decide

theorem test_V_CT3_branch_on_none :
    after (at_ 0x3000#16 0x0E01#16) (fun t => t.pc = 0x3001#16 && t.cond = .none) = true := by decide

theorem test_V_CT8_branch_wraps :
    after ((at_ 0x0000#16 0x0FFE#16).setCond .pos) (fun t => t.pc = 0xFFFF#16) = true := by decide

theorem test_V_CT11_ret :
    after (withRegs [(.R7, 0x3010#16)] (at_ 0x3020#16 0xC1C0#16)) (fun t => t.pc = 0x3010#16 && t.reg .R7 = 0x3010#16) = true := by
  decide

theorem test_V_CT15_jsr_backwards :
    after (at_ 0x3000#16 0x4C00#16) (fun t => t.reg .R7 = 0x3001#16 && t.pc = 0x2C01#16) = true := by decide

theorem test_V_CT17_jsrr :
    after (withRegs [(.R2, 0x4000#16)] (at_ 0x3000#16 0x4080#16)) (fun t =>
      t.reg .R7 = 0x3001#16 && t.pc = 0x4000#16) = true := by decide

theorem test_V_CT18_jsrr_r7 :
    after (withRegs [(.R7, 0x5000#16)] (at_ 0x3000#16 0x41C0#16)) (fun t =>
      t.reg .R7 = 0x3001#16 && t.pc = 0x3001#16) = true := by decide

theorem test_V_CT20_fetch_at_the_top : after (at_ 0xFFFF#16 0x0000#16) (fun t => t.pc = 0x0000#16) = true := by decide

/-! ## Single steps: loads and stores -/

theorem test_V_LS4_ld_wraps :
    after (withWords [(0xFFFF#16, 0x7777#16)] (at_ 0x0000#16 0x21FE#16)) (fun t =>
      t.reg .R0 = 0x7777#16 && t.cond = .pos) = true := by decide

theorem test_V_LS5_ld_polls_a_key :
    after { at_ 0xFDF0#16 0x200F#16 with polls := [.key 0x61#8] } (fun t =>
      t.reg .R0 = 0x8000#16 && t.cond = .neg && t.word 0xFE00#16 = 0x8000#16 && t.word 0xFE02#16 = 0x0061#16) = true := by decide

theorem test_V_LS6_ld_polls_no_key :
    after { withWords [(0xFE00#16, 0x8000#16), (0xFE02#16, 0x0061#16)] (at_ 0xFDF0#16 0x200F#16) with polls := [.noKey] } (fun t =>
      t.reg .R0 = 0x0000#16 && t.cond = .zero && t.word 0xFE00#16 = 0x0000#16 && t.word 0xFE02#16 = 0x0061#16) = true := by decide

theorem test_V_LS7_ld_poll_fails :
    after { withRegs [(.R0, 0x1111#16)] (at_ 0xFDF0#16 0x200F#16) with polls := [.fail], cond := .pos } (fun t =>
      t.fatal = some .kbdPollFail && t.reg .R0 = 0x1111#16 && t.cond = .pos && t.pc = 0xFDF1#16) = true := by decide

theorem test_V_LS9_ldi :
    after (withWords [(0x3002#16, 0x4000#16), (0x4000#16, 0x1234#16)] (at_ 0x3000#16 0xA001#16)) (fun t =>
      t.reg .R0 = 0x1234#16 && t.cond = .pos && t.pc = 0x3001#16) = true := by decide

theorem test_V_MM6_ldi_pointer_word_is_kbsr :
    after { at_ 0xFDFF#16 0xA000#16 with polls := [.key 0x41#8, .fail] } (fun t =>
      t.word 0xFE00#16 = 0x8000#16 && t.word 0xFE02#16 = 0x0041#16 && t.reg .R0 = 0x0000#16 && t.cond = .zero &&
        t.polls = [.fail]) = true := by decide

theorem test_V_LS8_ldr_reads_kbdr_without_a_poll :
    after { withRegs [(.R1, 0xFE00#16)] (withWords [(0xFE02#16, 0x0061#16)] (at_ 0x3000#16 0x6042#16)) with polls := [.fail] }
      (fun t => t.reg .R0 = 0x0061#16 && t.cond = .pos && t.polls = [.fail]) = true := by decide

theorem test_V_LS13_ldr_wraps :
    after (withRegs [(.R1, 0xFFFF#16)] (withWords [(0x0000#16, 0x0005#16)] (at_ 0x3000#16 0x6041#16))) (fun t =>
      t.reg .R0 = 0x0005#16 && t.cond = .pos) = true := by decide

theorem test_V_LS18_lea_at_the_top :
    after (at_ 0xFFFF#16 0xE000#16) (fun t => t.reg .R0 = 0x0000#16 && t.cond = .zero && t.pc = 0x0000#16) = true := by decide

theorem test_V_LS20_st :
    after (withRegs [(.R1, 0xBEEF#16)] (at_ 0x3000#16 0x3203#16)) (fun t =>
      t.word 0x3004#16 = 0xBEEF#16 && t.word 0x3000#16 = 0x3203#16 && t.cond = .none) = true := by decide

theorem test_V_LS21_st_is_fetched_next :
    after2 (withRegs [(.R1, 0xF025#16)] (at_ 0x3000#16 0x3200#16)) (fun t => t.pc = 0x3002#16 && !t.running) = true := by decide

theorem test_V_LS22_st_to_kbsr_does_not_poll :
    after { withRegs [(.R0, 0x1234#16)] (at_ 0xFDF0#16 0x300F#16) with polls := [.fail] } (fun t =>
      t.word 0xFE00#16 = 0x1234#16 && t.polls = [.fail] && t.fatal = none) = true := by decide

theorem test_V_LS23_sti :
    after (withRegs [(.R2, 0x0042#16)] (withWords [(0x3004#16, 0x5000#16)] (at_ 0x3005#16 0xB5FE#16))) (fun t =>
      t.word 0x5000#16 = 0x0042#16 && t.word 0x3004#16 = 0x5000#16 && t.cond = .none) = true := by decide

theorem test_V_LS24_str :
    after (withRegs [(.R5, 0x4000#16), (.R4, 0x00FF#16)] (at_ 0x3000#16 0x794A#16)) (fun t =>
      t.word 0x400A#16 = 0x00FF#16 && t.word 0x4000#16 = 0x0000#16) = true := by decide

/-! ## Single steps: traps and no-ops -/

theorem test_V_TR1_getc :
    after { withRegs [(.R0, 0xFFFF#16)] (at_ 0x3000#16 0xF020#16) with getcs := [.char 0x41#8] } (fun t =>
      t.reg .R0 = 0x0041#16 && t.out = [] && t.pc = 0x3001#16) = true := by decide

theorem test_V_TR2_getc_fails :
    after { withRegs [(.R0, 0x1111#16)] (at_ 0x3000#16 0xF020#16) with getcs := [.fail] } (fun t =>
      t.reg .R0 = 0x1111#16 && t.fatal = some .consReadFail) = true := by decide

theorem test_V_TR3_out :
    after (withRegs [(.R0, 0x1241#16)] (at_ 0x3000#16 0xF021#16)) (fun t =>
      t.out = [0x41#8] && t.reg .R0 = 0x1241#16) = true := by decide

/-- 10_state.md R42: the character passed to a ConsPutc that fails is in `out`. -/
theorem test_R42_failing_write_is_in_out :
    after { withRegs [(.R0, 0x1241#16)] (at_ 0x3000#16 0xF021#16) with outputFails := [0] } (fun t =>
      t.out = [0x41#8] && t.fatal = some .consWriteFail) = true := by decide

theorem test_V_TR7_puts_high_bytes :
    after (withRegs [(.R0, 0x4000#16)] (withWords [(0x4000#16, 0x4142#16), (0x4001#16, 0x0100#16)] (at_ 0x3000#16 0xF022#16)))
      (fun t => t.out = [0x42#8, 0x00#8] && t.reg .R0 = 0x4000#16) = true := by decide

theorem test_V_TR9_puts_over_kbsr :
    after { withRegs [(.R0, 0xFDFF#16)] (withWords [(0xFDFF#16, 0x0041#16)] (at_ 0x3000#16 0xF022#16)) with polls := [.fail] }
      (fun t => t.out = [0x41#8] && t.polls = [.fail] && t.fatal = none) = true := by decide

theorem test_V_TR12_putsp :
    after (withRegs [(.R0, 0x4000#16)] (withWords [(0x4000#16, 0x6948#16), (0x4001#16, 0x0021#16)] (at_ 0x3000#16 0xF024#16)))
      (fun t => t.out = [0x48#8, 0x69#8, 0x21#8]) = true := by decide

theorem test_V_TR13_putsp_zero_low_byte :
    after (withRegs [(.R0, 0x4000#16)] (withWords [(0x4000#16, 0x4100#16)] (at_ 0x3000#16 0xF024#16)))
      (fun t => t.out = [0x00#8, 0x41#8]) = true := by decide

/-- V-TR10, for every value of the prompt. -/
theorem test_V_TR10_in (s : State) (ho : s.outputFails = []) (hg : s.getcs = [.char 0x79#8]) :
    exec .inp s = .next ({ s with getcs := [], out := s.out ++ config.inPrompt ++ [0x79#8] }.setReg .R0 0x0079#16) := by
  simp only [exec, execIn, inRoutine]
  rw [putAll_ok _ ho, Attempt.andThen_done, flush_ok (by simpa using ho), Attempt.andThen_done,
    readChar_char (rest := []) (by simpa using hg), Attempt.andThen_done, putc_ok _ (by simpa using ho),
    Attempt.andThen_done, flush_ok (by simpa using ho)]
  rfl

theorem test_V_TR14_halt :
    after (at_ 0x3005#16 0xF025#16) (fun t => !t.running && t.pc = 0x3006#16 && t.out = []) = true := by decide

theorem test_V_TR15_halt_flush_fails :
    after { at_ 0x3000#16 0xF025#16 with outputFails := [0] } (fun t =>
      t.running && t.fatal = some .consWriteFail) = true := by decide

theorem test_V_TR17_unlisted_trap :
    step (at_ 0x3000#16 0xF026#16) = .next ((at_ 0x3000#16 0xF026#16).setPc 0x3001#16) := rfl

theorem test_V_TR20_rti : step (at_ 0x3000#16 0x8FFF#16) = .next ((at_ 0x3000#16 0x8FFF#16).setPc 0x3001#16) := rfl

theorem test_V_TR21_reserved : step (at_ 0x3000#16 0xDABC#16) = .next ((at_ 0x3000#16 0xDABC#16).setPc 0x3001#16) := rfl

/-! ## Memory, fetch, loader and reset -/

theorem test_V_MM3_fetch_from_kbsr_with_a_key :
    after { State.reset with pc := 0xFE00#16, polls := [.key 0x41#8] } (fun t =>
      t.pc = 0xFE01#16 && t.word 0xFE00#16 = 0x8000#16 && t.word 0xFE02#16 = 0x0041#16 && t.cond = .none) = true := by decide

theorem test_V_MM5_fetch_from_kbsr_fails :
    after { State.reset with pc := 0xFE00#16, polls := [.fail] } (fun t =>
      t.pc = 0xFE00#16 && t.fatal = some .kbdPollFail) = true := by decide

theorem test_write_of_the_unlisted_value_removes_the_cells :
    ((State.reset.setWord 0x4000#16 0xAA55#16).setWord 0x4000#16 0x0000#16) = State.reset := by decide

theorem test_W4_image_load :
    loadImage (some [0x30#8, 0x00#8, 0xAA#8, 0xAA#8, 0xBB#8, 0xBB#8]) (assertReset State.reset) =
      withWords [(0x3000#16, 0xAAAA#16), (0x3001#16, 0xBBBB#16)] (assertReset State.reset) := by decide

theorem test_W7_later_image_wins :
    (boot [some [0x30#8, 0x00#8, 0xA0#8, 0x00#8, 0xA0#8, 0x01#8, 0xA0#8, 0x02#8, 0xA0#8, 0x03#8],
        some [0x30#8, 0x02#8, 0xB0#8, 0x00#8, 0xB0#8, 0x01#8]] State.reset) =
      withWords [(0x3000#16, 0xA000#16), (0x3001#16, 0xA001#16), (0x3002#16, 0xB000#16), (0x3003#16, 0xB001#16)]
        State.reset := by decide

theorem test_V_LD1_odd_image :
    boot [some [0x30#8, 0x00#8, 0x12#8]] State.reset = withWords [(0x3000#16, 0x1200#16)] State.reset := by decide

theorem test_V_LD2_origin_only : boot [some [0x30#8, 0x00#8]] State.reset = State.reset := by decide

theorem test_V_LD3_LD4_short_images :
    (boot [some [0x30#8]] State.reset).fatal = some .loadFail ∧ (boot [some []] State.reset).fatal = some .loadFail ∧
      (boot [none] State.reset).rst = true := by decide

theorem test_V_LD5_wrapping_image :
    boot [some [0xFF#8, 0xFF#8, 0x11#8, 0x11#8, 0x22#8, 0x22#8]] State.reset =
      withWords [(0xFFFF#16, 0x1111#16), (0x0000#16, 0x2222#16)] State.reset := by decide

theorem test_V_RS2_nothing_loaded : step State.reset = .next (State.reset.setPc 0x3001#16) := rfl

theorem test_status_port : State.reset.status = (true, 0#3) ∧ (State.reset.setFatal .loadFail).status = (true, 4#3) := by decide

theorem test_run_states :
    State.reset.runState = .running ∧ State.reset.stopRunning.runState = .halted ∧
      (State.reset.stopRunning.setFatal .consWriteFail).runState = .fatal := by decide

/-! ## Witnesses: hypotheses that are met -/

/-- A state whose polls answer `l`. -/
def polling (l : List PollAnswer) : State := { State.reset with polls := l }

/-- A state with pc at KBSR_ADDR whose polls answer `l`. -/
def atKbsr (l : List PollAnswer) : State := { State.reset with pc := 0xFE00#16, polls := l }

theorem witness_StepFetchesIncrementsAndExecutes :
    (State.reset.mayStep ∧ memRead State.reset.pc State.reset = .done 0x0000#16 State.reset) ∧
    ((atKbsr [.key 0xFF#8]).mayStep ∧ ∃ s', memRead 0xFE00#16 (atKbsr [.key 0xFF#8]) = .done 0x8000#16 s') ∧
    ((atKbsr [.fail]).mayStep ∧ ∃ s', memRead 0xFE00#16 (atKbsr [.fail]) = .raised s') ∧
    ¬ (State.reset.stopRunning).mayStep ∧ ¬ (State.reset.setFatal .consReadFail).mayStep ∧
    ¬ (assertReset State.reset).mayStep :=
  ⟨⟨by decide, rfl⟩, ⟨by decide, _, rfl⟩, ⟨by decide, _, rfl⟩, by decide, by decide, by decide⟩

theorem witness_StepIsExecOfTheDecodedWord :
    (at_ 0xFFFF#16 0x1042#16).mayStep ∧ (at_ 0xFFFF#16 0x1042#16).pc ≠ config.kbsrAddr ∧
      decode ((at_ 0xFFFF#16 0x1042#16).word 0xFFFF#16) = .addReg .R0 .R1 .R2 := by decide

theorem witness_FetchFromKeyboardStatusIsANoOpOrFatal :
    ((atKbsr [.key 0x00#8, .fail]).mayStep ∧ (atKbsr [.key 0x00#8, .fail]).pc = config.kbsrAddr) ∧
      ((atKbsr [.noKey]).mayStep ∧ (atKbsr [.noKey]).pc = config.kbsrAddr) ∧
      (atKbsr [.fail]).mayStep ∧ (atKbsr [.fail]).pc = config.kbsrAddr := by decide

theorem witness_FatalAndHaltedStatesTakeNoFurtherStep :
    (∃ t, step (atKbsr [.fail]) = .next t ∧ t.fatal = some .kbdPollFail) ∧
      ∃ t, step (at_ 0x3000#16 0xF025#16) = .next t ∧ t.fatal = none ∧ t.running = false :=
  ⟨⟨_, rfl, rfl⟩, ⟨_, rfl, rfl, rfl⟩⟩

theorem witness_ReadOfKeyboardStatusPolls :
    (polling [.key 0xFF#8, .noKey]).polls = .key 0xFF#8 :: [.noKey] ∧ (polling [.noKey]).polls = .noKey :: [] ∧
      (polling [.fail]).polls = .fail :: [] := by decide

theorem witness_ReadElsewhereHasNoSideEffect :
    config.kbdrAddr ≠ config.kbsrAddr ∧ (0x0000#16 : Word) ≠ config.kbsrAddr ∧ (0xFDFF#16 : Word) ≠ config.kbsrAddr ∧
      (0xFE01#16 : Word) ≠ config.kbsrAddr ∧ (0xFFFF#16 : Word) ≠ config.kbsrAddr := by decide

theorem witness_CanonicalMemoryIsUnique :
    Memory.wf [(0, 1#8), (1, 255#8), (131071, 7#8)] ∧
      ∀ a, Memory.readWord [(0, 1#8), (1, 255#8), (131071, 7#8)] a = Memory.readWord [(0, 1#8), (1, 255#8), (131071, 7#8)] a :=
  ⟨by decide, fun _ => rfl⟩

theorem witness_NotThenAddOneNegates :
    ∃ t u, exec (.not .R7 .R7) (withRegs [(.R7, 0x8000#16)] State.reset) = .next t ∧
      exec (.addImm .R7 .R7 1#5) t = .next u ∧ u.reg .R7 = 0x8000#16 := ⟨_, _, rfl, rfl, by decide⟩

theorem witness_SignExtensionCopiesTheTopBit :
    (0 < 1 ∧ 1 ≤ 16) ∧ (0 < 16 ∧ 16 ≤ 16) ∧ sext 1#1 = 0xFFFF#16 ∧ sext 0x7FFF#16 = 0x7FFF#16 := by decide

theorem witness_LdLoadsAndSetsCond :
    (State.reset.pc + (0x0FF#9).signExtend 16 ≠ config.kbsrAddr) ∧
      (∃ v s', memRead ((at_ 0xFE00#16 0#16).pc + (0#9).signExtend 16) { at_ 0xFE00#16 0#16 with polls := [.key 0#8] } = .done v s') ∧
      ∃ s', memRead ((atKbsr [.fail]).pc + (0#9).signExtend 16) (atKbsr [.fail]) = .raised s' :=
  ⟨by decide, ⟨_, _, rfl⟩, ⟨_, rfl⟩⟩

/-- A state at pc 0x3000 whose word there, the pointer of an LDI or STI with offset 0, is KBSR_ADDR. -/
def pointing (l : List PollAnswer) : State := { at_ 0x3000#16 0xFE00#16 with polls := l }

theorem witness_LdiLoadsThroughThePointer :
    (State.reset.pc + (0#9).signExtend 16 ≠ config.kbsrAddr ∧
      State.reset.word (State.reset.pc + (0#9).signExtend 16) ≠ config.kbsrAddr) ∧
    (∃ q v s' s'', memRead ((pointing [.noKey]).pc + (0#9).signExtend 16) (pointing [.noKey]) = .done q s' ∧
      memRead q s' = .done v s'') ∧
    (∃ s', memRead ((atKbsr [.fail]).pc + (0#9).signExtend 16) (atKbsr [.fail]) = .raised s') ∧
    ∃ q s' s'', memRead ((pointing [.fail]).pc + (0#9).signExtend 16) (pointing [.fail]) = .done q s' ∧
      memRead q s' = .raised s'' :=
  ⟨by decide, ⟨_, _, _, _, rfl, rfl⟩, ⟨_, rfl⟩, ⟨_, _, _, rfl, rfl⟩⟩

theorem witness_LdrLoadsFromBasePlusOffset :
    (State.reset.reg .R0 + (0x20#6).signExtend 16 ≠ config.kbsrAddr) ∧
      (∃ v s', memRead ((withRegs [(.R1, 0xFE01#16)] (polling [.noKey])).reg .R1 + (0x3F#6).signExtend 16)
        (withRegs [(.R1, 0xFE01#16)] (polling [.noKey])) = .done v s') ∧
      ∃ s', memRead ((withRegs [(.R1, 0xFE01#16)] (polling [.fail])).reg .R1 + (0x3F#6).signExtend 16)
        (withRegs [(.R1, 0xFE01#16)] (polling [.fail])) = .raised s' :=
  ⟨by decide, ⟨_, _, rfl⟩, ⟨_, rfl⟩⟩

theorem witness_StiStoresThroughThePointer :
    (State.reset.pc + (0x100#9).signExtend 16 ≠ config.kbsrAddr) ∧
      (∃ q s', memRead ((pointing []).pc + (0#9).signExtend 16) (pointing []) = .done q s') ∧
      ∃ s', memRead ((atKbsr [.fail]).pc + (0#9).signExtend 16) (atKbsr [.fail]) = .raised s' :=
  ⟨by decide, ⟨_, _, rfl⟩, ⟨_, rfl⟩⟩

theorem witness_NextStepFetchesTheStoredWord :
    (at_ 0x3000#16 0x3200#16).mayStep ∧ (at_ 0x3000#16 0x3200#16).pc ≠ config.kbsrAddr ∧
      (at_ 0x3000#16 0x3200#16).pc + 1#16 ≠ config.kbsrAddr ∧
      (at_ 0x3000#16 0x3200#16).word 0x3000#16 = encode (.st .R1 0#9) := by decide

theorem witness_BranchWordIsTestedBitwise :
    (0x0000#16 : Word).extractLsb' 12 4 = 0x0#4 ∧ (0x0FFF#16 : Word).extractLsb' 12 4 = 0x0#4 := by decide

theorem witness_TakenBranchToItselfChangesNothing :
    ((at_ 0x3000#16 0x09FF#16).setCond .neg).mayStep ∧ ((at_ 0x3000#16 0x09FF#16).setCond .neg).pc ≠ config.kbsrAddr ∧
      ((at_ 0x3000#16 0x09FF#16).setCond .neg).word 0x3000#16 = encode (.br true false false 0x1FF#9) ∧
      branchTaken true false false ((at_ 0x3000#16 0x09FF#16).setCond .neg).cond = true := by decide

theorem witness_UnlistedTrapsRtiAndReservedDoNothing :
    (0x00#8).toNat < 0x20 ∧ (0x1F#8).toNat < 0x20 ∧ 0x25 < (0x26#8).toNat ∧ 0x25 < (0xFF#8).toNat := by decide

/-- A state whose next blocking reads answer `l`. -/
def reading (l : List GetcAnswer) : State := { State.reset with getcs := l }

theorem witness_TrapVectorSelectsTheRoutine :
    (∃ t, exec (decode 0xF020#16) (reading [.char 0x41#8]) = .next t) ∧
      (Reg.R0 = .R0 → (0xFF25#16 : Word).extractLsb' 0 8 ≠ 0x20#8 ∧ (0xFF25#16 : Word).extractLsb' 0 8 ≠ 0x23#8) ∧
      (0xF000#16 : Word).extractLsb' 12 4 = 0xF#4 ∧ (0xFFFF#16 : Word).extractLsb' 12 4 = 0xF#4 ∧
      (0xFF25#16 : Word).extractLsb' 12 4 = 0xF#4 := ⟨⟨_, rfl⟩, by decide⟩

theorem witness_GetcReadsOneCharacter :
    (reading [.char 0xFF#8]).getcs = .char 0xFF#8 :: [] ∧ (reading [.fail]).getcs = .fail :: [] ∧
      (reading [.never, .fail]).getcs = .never :: [.fail] := by decide

/-- A state whose coming writes and flushes fail as `l` says. -/
def failing (l : List Nat) : State := { State.reset with outputFails := l }

theorem witness_OutWritesTheLowByteOfR0 :
    (failing []).outputFails = [] ∧ (failing [2]).outputFails = (0 + 2) :: [] ∧ (failing [1]).outputFails = 1 :: [] ∧
      (failing [0, 0]).outputFails = 0 :: [0] := by decide

/-- A state with the packed string "Hi!" at 0xFFFF and on, R0 pointing at it, and coming failures `l`. -/
def saying (l : List Nat) : State :=
  withRegs [(.R0, 0xFFFF#16)] (withWords [(0xFFFF#16, 0x6948#16), (0x0000#16, 0x0021#16)] (failing l))

theorem saying_string (l : List Nat) : StringAt (saying l) ((saying l).reg .R0) [0x6948#16, 0x0021#16] := by
  have h : ∀ a, (saying l).word a = (saying []).word a := fun _ => rfl
  have hr : (saying l).reg .R0 = 0xFFFF#16 := rfl
  rw [hr]
  exact ⟨(h _).trans (by decide : (saying []).word 0xFFFF#16 = 0x6948#16), by decide,
    (h _).trans (by decide : (saying []).word (0xFFFF#16 + 1#16) = 0x0021#16), by decide,
    (h _).trans (by decide : (saying []).word (0xFFFF#16 + 1#16 + 1#16) = 0x0000#16)⟩

theorem witness_PutsWritesTheLowBytesOfTheString :
    (StringAt (saying []) ((saying []).reg .R0) [0x6948#16, 0x0021#16] ∧ (saying []).outputFails = []) ∧
    (StringAt (saying [3]) ((saying [3]).reg .R0) [0x6948#16, 0x0021#16] ∧ (saying [3]).outputFails = 3 :: [] ∧
      [0x6948#16, 0x0021#16].length < 3) ∧
    (StringAt (saying [2]) ((saying [2]).reg .R0) [0x6948#16, 0x0021#16] ∧ (saying [2]).outputFails = 2 :: [] ∧
      2 ≤ [0x6948#16, 0x0021#16].length) ∧
    (saying [0]).outputFails = 0 :: [] ∧ StringAt State.reset (State.reset.reg .R0) [] :=
  ⟨⟨saying_string _, rfl⟩, ⟨saying_string _, rfl, by decide⟩, ⟨saying_string _, rfl, by decide⟩, rfl, rfl⟩

theorem witness_PutspWritesThePackedString :
    ([0x48#8, 0x69#8, 0x21#8] = [0x6948#16, 0x0021#16].flatMap fun w : Word =>
      if w.extractLsb' 8 8 = 0x00#8 then [w.setWidth 8] else [w.setWidth 8, w.extractLsb' 8 8]) ∧
    (StringAt (saying []) ((saying []).reg .R0) [0x6948#16, 0x0021#16] ∧ (saying []).outputFails = []) ∧
    (StringAt (saying [4]) ((saying [4]).reg .R0) [0x6948#16, 0x0021#16] ∧ (saying [4]).outputFails = 4 :: [] ∧
      [0x48#8, 0x69#8, 0x21#8].length < 4) ∧
    (StringAt (saying [3]) ((saying [3]).reg .R0) [0x6948#16, 0x0021#16] ∧ (saying [3]).outputFails = 3 :: [] ∧
      3 ≤ [0x48#8, 0x69#8, 0x21#8].length) :=
  ⟨by decide, ⟨saying_string _, rfl⟩, ⟨saying_string _, rfl, by decide⟩, saying_string _, rfl, by decide⟩

/-- A memory in which every one of the words from `k` on, `n` of them, has high byte 1. -/
def fullMemory : Nat → Nat → Memory
  | _, 0 => []
  | k, n + 1 => (2 * k, 1#8) :: fullMemory (k + 1) n

theorem fullMemory_read (n k j : Nat) (h : k ≤ j) (hj : j < k + n) : (fullMemory k n).readByte (2 * j) = 1#8 := by
  induction n generalizing k with
  | zero => omega
  | succ n ih =>
    simp only [fullMemory, Memory.readByte]
    split
    · rfl
    · exact ih (k + 1) (by omega) (by omega)

/-- A state without a zero word. -/
def full : State := { State.reset with mem := fullMemory 0 65536 }

theorem full_word (a : Word) : full.word a ≠ 0x0000#16 := by
  have hr : full.mem.readByte (hiCell a) = 1#8 := fullMemory_read 65536 0 a.toNat (by omega) (by omega)
  rw [State.word, Memory.readWord, hr]
  generalize full.mem.readByte (loCell a) = b
  revert b
  decide

theorem witness_StringTrapsHangOnlyWithoutAZeroWord :
    ((∀ a, full.word a ≠ 0x0000#16) ∧ full.outputFails = [] ∧ exec .puts full = .fault .stringNeverEnds) ∧
      ∃ t, exec .puts State.reset = .next t := by
  refine ⟨⟨full_word, rfl, ?_⟩, next_of_completes (by decide)⟩
  simp only [exec, execPuts, putsRoutine]
  rw [putString_no_zero _ _ _ full_word rfl]
  rfl

theorem witness_InPromptsReadsAndEchoes :
    ((reading [.char 0x00#8]).outputFails = [] ∧ (reading [.char 0x00#8]).getcs = .char 0x00#8 :: []) ∧
      ((reading [.fail]).outputFails = [] ∧ (reading [.fail]).getcs = .fail :: []) ∧
      (reading [.never]).outputFails = [] ∧ (reading [.never]).getcs = .never :: [] := by decide

/-- Each clause of InRaisesAtTheFirstFailingWrite is met at its boundary, and the bounds do not overlap. -/
theorem witness_InRaisesAtTheFirstFailingWrite :
    ({ reading [.char 0x41#8] with outputFails := [config.inPrompt.length] }.getcs = .char 0x41#8 :: []) ∧
      (0 ≤ config.inPrompt.length ∧ config.inPrompt.length ≤ config.inPrompt.length) ∧
      ({ reading [.char 0x41#8] with outputFails := [config.inPrompt.length + 1] }.outputFails =
        (config.inPrompt.length + 1) :: []) ∧
      ({ reading [.char 0x41#8] with outputFails := [config.inPrompt.length + 2] }.outputFails =
        (config.inPrompt.length + 2) :: []) ∧
      ({ reading [.char 0x41#8] with outputFails := [config.inPrompt.length + 3] }.outputFails =
        (config.inPrompt.length + 3) :: []) ∧
      ¬ config.inPrompt.length + 1 ≤ config.inPrompt.length :=
  ⟨rfl, ⟨Nat.zero_le _, Nat.le_refl _⟩, rfl, rfl, rfl, by omega⟩

theorem witness_HaltClearsRunning :
    (failing []).outputFails = [] ∧ (failing [1]).outputFails = (0 + 1) :: [] ∧ (failing [0]).outputFails = 0 :: [] := by decide

theorem witness_RegistersChangeOnlyAsListed :
    (∃ t, exec (.jsr 0x3FF#11) State.reset = .next t) ∧ mayWriteReg (.jsr 0x3FF#11) .R6 = false ∧
      (∃ t, exec .getc (reading [.char 0xFF#8]) = .next t) ∧ mayWriteReg .getc .R1 = false :=
  ⟨⟨_, rfl⟩, rfl, ⟨_, rfl⟩, rfl⟩

theorem witness_CondFollowsTheSevenInstructions :
    (∃ t, exec (.str .R0 .R1 0#6) State.reset = .next t) ∧ affectsFlags (.str .R0 .R1 0#6) = false ∧
      (∃ t, exec (.ldi .R7 0#9) (pointing [.key 0#8]) = .next t ∧ t.fatal = none) ∧ affectsFlags (.ldi .R7 0#9) = true ∧
      mayWriteReg (.ldi .R7 0#9) .R7 = true :=
  ⟨⟨_, rfl⟩, rfl, ⟨_, rfl, rfl⟩, rfl, by decide⟩

theorem witness_CondNeverReturnsToNone :
    ∃ t, step ((at_ 0x3000#16 0x1020#16).setCond .pos) = .next t ∧ ((at_ 0x3000#16 0x1020#16).setCond .pos).cond ≠ .none ∧
      t.cond = .zero := ⟨_, rfl, by decide, by decide⟩

theorem witness_OnlyControlTransfersWritePc :
    branchTaken true true true State.reset.cond = false ∧ (∃ t, exec .halt State.reset = .next t) ∧ transfersControl .halt = false ∧
      ∃ t w s', step (at_ 0xFFFF#16 0xF025#16) = .next t ∧ fetch (at_ 0xFFFF#16 0xF025#16) = .done w s' ∧
        transfersControl (decode w) = false := ⟨rfl, ⟨_, rfl⟩, rfl, _, _, _, rfl, rfl, by decide⟩

theorem witness_MemoryChangesOnlyByStoresAndRefresh :
    (∃ t, exec (.ld .R0 0#9) (atKbsr [.key 0x41#8]) = .next t) ∧ isStore (.ld .R0 0#9) = false ∧
      (∃ t, exec .out State.reset = .next t) ∧ isStore .out = false ∧ readsMemory .out = false ∧
      (0xFDFF#16 : Word) ≠ config.kbsrAddr ∧ (0xFDFF#16 : Word) ≠ config.kbdrAddr :=
  ⟨⟨_, rfl⟩, rfl, ⟨_, rfl⟩, rfl, rfl, by decide, by decide⟩

theorem witness_OnlyHaltClearsRunning :
    (∃ t, step (at_ 0x3000#16 0xFF25#16) = .next t ∧ t.running = false) ∧ State.reset.stopRunning.running = false :=
  ⟨⟨_, rfl, rfl⟩, rfl⟩

theorem witness_OutputIsAppendOnly :
    ∃ t, step { at_ 0x3000#16 0xF021#16 with out := [0x41#8] } = .next t ∧ t.out = [0x41#8, 0x00#8] := ⟨_, rfl, by decide⟩

theorem witness_FatalCodesAreRaisedOnlyAsListed :
    (∃ t, exec .getc (reading [.fail]) = .next t ∧ (reading [.fail]).fatal = none ∧ t.fatal = some .consReadFail) ∧
      (∃ t, exec .halt (failing [0]) = .next t ∧ t.fatal = some .consWriteFail) ∧
      (∃ t, exec (.ld .R0 0#9) (atKbsr [.fail]) = .next t ∧ t.fatal = some .kbdPollFail) ∧
      ∃ t, fetch (atKbsr [.fail]) = .raised t := ⟨⟨_, rfl, rfl, rfl⟩, ⟨_, rfl, rfl⟩, ⟨_, rfl, rfl⟩, ⟨_, rfl⟩⟩

theorem witness_PendingKeysChangeNothingUntilRead :
    readsMemory .puts = false ∧ ∃ t, exec .puts (saying []) = .next t := ⟨rfl, next_of_completes (by decide)⟩

theorem witness_EveryStepKeepsTheInvariant :
    (at_ 0x3000#16 0x3200#16).Inv ∧ ∃ t, step (at_ 0x3000#16 0x3200#16) = .next t := ⟨by decide, _, rfl⟩

theorem witness_DecodeOfEncodeIsTheInstruction :
    (Instr.br true true true 0x1FF#9).wellFormed = true ∧ (Instr.trap 0x1F#8).wellFormed = true ∧
      (Instr.trap 0x26#8).wellFormed = true ∧ (Instr.jsr 0x7FF#11).wellFormed = true := by decide

theorem witness_IgnoredBitsDoNotMatter :
    (0xFFFF#16 : Word) &&& (decode 0xFFFF#16).readMask = 0xF0FF#16 &&& (decode 0xFFFF#16).readMask ∧
      (0x9940#16 : Word) &&& (decode 0x9940#16).readMask = 0x997F#16 &&& (decode 0x9940#16).readMask ∧
      (0x1058#16 : Word) &&& (decode 0x1058#16).readMask = 0x1040#16 &&& (decode 0x1058#16).readMask := by decide

theorem witness_DecoderReadsTheFieldsOfEachForm :
    (0x0FFF#16 : Word) &&& 0xF000#16 = 0x0000#16 ∧ (0x1FDF#16 : Word) &&& 0xF020#16 = 0x1000#16 ∧
      (0x1FFF#16 : Word) &&& 0xF020#16 = 0x1020#16 ∧ (0x2FFF#16 : Word) &&& 0xF000#16 = 0x2000#16 ∧
      (0x3FFF#16 : Word) &&& 0xF000#16 = 0x3000#16 ∧ (0x4FFF#16 : Word) &&& 0xF800#16 = 0x4800#16 ∧
      (0x47FF#16 : Word) &&& 0xF800#16 = 0x4000#16 ∧ (0x5FDF#16 : Word) &&& 0xF020#16 = 0x5000#16 ∧
      (0x5FFF#16 : Word) &&& 0xF020#16 = 0x5020#16 ∧ (0x6FFF#16 : Word) &&& 0xF000#16 = 0x6000#16 ∧
      (0x7FFF#16 : Word) &&& 0xF000#16 = 0x7000#16 ∧ (0x8FFF#16 : Word) &&& 0xF000#16 = 0x8000#16 ∧
      (0x9FFF#16 : Word) &&& 0xF000#16 = 0x9000#16 ∧ (0xAFFF#16 : Word) &&& 0xF000#16 = 0xA000#16 ∧
      (0xBFFF#16 : Word) &&& 0xF000#16 = 0xB000#16 ∧ (0xCFFF#16 : Word) &&& 0xF000#16 = 0xC000#16 ∧
      (0xDFFF#16 : Word) &&& 0xF000#16 = 0xD000#16 ∧ (0xEFFF#16 : Word) &&& 0xF000#16 = 0xE000#16 ∧
      (0xFFFF#16 : Word) &&& 0xF000#16 = 0xF000#16 := by decide

theorem witness_ImagePayloadLandsFromItsOrigin :
    (assertReset State.reset).rst = true ∧
      (∀ j < [0x1111#16, 0x2222#16].length, 0 < j → (0xFFFF#16 : Word) + BitVec.ofNat 16 j ≠ 0xFFFF#16 + BitVec.ofNat 16 0) ∧
      ∀ i < [0x1111#16, 0x2222#16].length, (0x0001#16 : Word) ≠ 0xFFFF#16 + BitVec.ofNat 16 i := by decide

theorem witness_OddImageIsPaddedWithAZeroByte :
    ([0x30#8, 0x00#8] : List Byte).length % 2 = 0 ∧ ([0x30#8, 0x00#8] : List Byte) ≠ [] := by decide

theorem witness_FailedLoadKeepsTheCoreInReset :
    (∃ bytes : List Byte, (some [0x30#8] : Option (List Byte)) = some bytes ∧ bytes.length < 2) ∧
      (∃ bytes : List Byte, (some [] : Option (List Byte)) = some bytes ∧ bytes.length < 2) ∧
      (none : Option (List Byte)) = none := ⟨⟨_, rfl, by decide⟩, ⟨_, rfl, by decide⟩, rfl⟩

theorem witness_BootReleasesTheResetState :
    ∀ bytes ∈ ([[0x30#8, 0x00#8], [0xFF#8, 0xFF#8, 0x11#8]] : List (List Byte)), 2 ≤ bytes.length := by decide

end Sys2Proof.Tests
end

/-! The settled statements of 00_scope.md: sign extension and `setcc` bit by bit (R8, R12), and the output stream that only
grows (R13). -/

namespace Sys2Proof.Machine

/-! ## Sign extension and setcc -/

/-- Settles O16: `sext` is `BitVec.signExtend`, whose bits above the width are the sign bit. -/
theorem signExtensionCopiesTheTopBit : Obligations.SignExtensionCopiesTheTopBit := by
  intro n v _ h16 i hi
  rw [sext_eq_signExtend v h16, BitVec.getLsbD_signExtend, BitVec.msb_eq_getLsbD_last]
  simp [hi]

/-- The flag of a value is that of its sign as a two's-complement number. -/
theorem condOf_eq_sign (v : Word) :
    condOf v = if v.toInt = 0 then .zero else if v.toInt < 0 then .neg else .pos := by
  have hzero : v = 0x0000#16 ↔ v.toInt = 0 := BitVec.toInt_inj.symm
  have hneg : v.getLsbD 15 = true ↔ v.toInt < 0 := by
    rw [← BitVec.msb_eq_getLsbD_last v, BitVec.msb_eq_toInt, decide_eq_true_iff]
  simp only [condOf, hzero, hneg]

/-- Settles O17: `writeResult` sets `cond` to `condOf`, which is R12's own case split and the sign's. -/
theorem setccClassifiesTheSign : Obligations.SetccClassifiesTheSign :=
  fun dr v s => ⟨cond_writeResult s dr v, (cond_writeResult s dr v).trans (condOf_eq_sign v)⟩

/-! ## The output stream -/

@[simp] theorem writeResult_out (dr : Reg) (v : Word) (s : State) : (writeResult dr v s).out = s.out := rfl

/-- A memory read writes no character, whether it completes or raises. -/
theorem memRead_out (a : Word) (s : State) :
    (memRead a s).Post (fun _ t => t.out = s.out) (fun t => t.out = s.out) :=
  (memRead_post a s).mono (fun _ _ ⟨_, ht, _⟩ => by rw [ht]) fun _ ⟨_, ht⟩ => by rw [ht]

/-- Nor does a fetch. -/
theorem fetch_out (s : State) : (fetch s).Post (fun _ t => t.out = s.out) (fun t => t.out = s.out) :=
  (fetch_post s).mono (fun _ _ ⟨ht, _⟩ => by rw [ht]) fun _ ht => by rw [ht]

/-- An operation that writes no character, followed by an update that writes none, keeps the stream. -/
theorem Attempt.Post.into_out_prefix {α : Type} {r : Attempt α} {s t : State} {f : α → State → State}
    (hr : r.Post (fun _ u => u.out = s.out) (fun u => u.out = s.out)) (hf : ∀ a u, (f a u).out = u.out)
    (ht : r.into (fun a u => .next (f a u)) = .next t) : s.out <+: t.out := by
  have hout : t.out = s.out :=
    hr.into (E := fun u => u.out = s.out) (fun a u _ hu h => by cases h; exact (hf a u).trans hu) ht
  rw [hout]

theorem TrapFrame.out_prefix {s t : State} (h : TrapFrame s t) : s.out <+: t.out := by
  obtain ⟨w, hw⟩ := h.out
  exact ⟨w, hw.symm⟩

/-- A trap routine only adds to the stream. -/
theorem finish_out_prefix {r : Attempt Unit} {s t : State} (hr : r.Post (fun _ u => TrapFrame s u) (TrapFrame s))
    (ht : r.finish = .next t) : s.out <+: t.out :=
  (hr.finish ht).out_prefix

/-- Every instruction keeps the stream as a beginning of the new one: only the trap routines write characters. -/
theorem exec_out_prefix (i : Instr) {s t : State} (h : exec i s = .next t) : s.out <+: t.out := by
  cases i with
  | addReg | addImm | andReg | andImm | not | lea | st | str | jmp | jsr | jsrr | rti | reserved =>
    cases h
    exact List.prefix_rfl
  | br =>
    cases h
    split <;> exact List.prefix_rfl
  | ld dr off => exact (memRead_out _ s).into_out_prefix (fun v u => writeResult_out dr v u) h
  | ldr dr base off => exact (memRead_out _ s).into_out_prefix (fun v u => writeResult_out dr v u) h
  | ldi dr off =>
    have hreads := (memRead_out (pcRel off s) s).andThen fun q u hu => hu ▸ memRead_out q u
    exact hreads.into_out_prefix (fun v u => writeResult_out dr v u) h
  | sti sr off => exact (memRead_out _ s).into_out_prefix (fun q u => State.setWord_out u q (u.reg sr)) h
  | trap v => exact finish_out_prefix (trapRoutine_frame v s) h
  | getc => exact finish_out_prefix (getcRoutine_frame s) h
  | out => exact finish_out_prefix (OutputFrame.weaken (outRoutine_frame s)) h
  | puts => exact finish_out_prefix (OutputFrame.weaken (putsRoutine_frame s)) h
  | inp => exact finish_out_prefix (inRoutine_frame s) h
  | putsp => exact finish_out_prefix (OutputFrame.weaken (putspRoutine_frame s)) h
  | halt => exact finish_out_prefix (haltRoutine_frame s) h

/-- Settles O47: the fetch writes no character, and the instruction after it only adds some. -/
theorem outputIsAppendOnly : Obligations.OutputIsAppendOnly := by
  intro s t h
  have hf := fetch_out s
  rcases step_cases h with hfetch | ⟨w, u, hfetch, hexec⟩ <;> rw [hfetch] at hf
  · have hout : t.out = s.out := hf
    rw [hout]
  · have hout : u.out = s.out := hf
    rw [← hout]
    exact exec_out_prefix (decode w) hexec

end Sys2Proof.Machine

/-! The settled statements of 10_state.md: what an instruction can do to the state, said once (`Effect`), and from it the
rules of the registers (R31), of `cond` (R33, R35), of pc (R38) and of Running (R39). -/

namespace Sys2Proof.Machine

/-! ## What a memory read leaves as it was -/

/-- Only memory, the coming poll answers and the fatal status differ: what any `MemRead` keeps to (20_memory.md R55). -/
structure ReadFrame (s t : State) : Prop where
  eq : t = { s with mem := t.mem, polls := t.polls, pollDraws := t.pollDraws, fatal := t.fatal }

theorem ReadFrame.refl (s : State) : ReadFrame s s := ⟨rfl⟩

theorem ReadFrame.regs {s t : State} (h : ReadFrame s t) : t.regs = s.regs := by rw [h.eq]

theorem ReadFrame.reg {s t : State} (h : ReadFrame s t) (r : Reg) : t.reg r = s.reg r := congrArg (RegFile.get · r) h.regs

theorem ReadFrame.pc {s t : State} (h : ReadFrame s t) : t.pc = s.pc := by rw [h.eq]

theorem ReadFrame.cond {s t : State} (h : ReadFrame s t) : t.cond = s.cond := by rw [h.eq]

theorem ReadFrame.running {s t : State} (h : ReadFrame s t) : t.running = s.running := by rw [h.eq]

theorem ReadFrame.trans {s t u : State} (h : ReadFrame s t) (k : ReadFrame t u) : ReadFrame s u :=
  ⟨by rw [k.eq, h.eq]⟩

/-- A read that completes keeps to its frame; one that raises keeps to it too, with the code of the failed poll. -/
theorem memRead_readFrame (a : Word) (s : State) :
    (memRead a s).Post (fun _ t => ReadFrame s t) (fun t => ReadFrame s t ∧ t.fatal = some .kbdPollFail) := by
  refine (memRead_post a s).mono (fun _ t ⟨_, ht, _⟩ => ⟨?_⟩) fun t ⟨_, ht⟩ => ⟨⟨?_⟩, ?_⟩ <;> rw [ht]

/-- A fetch is a read followed by the increment of pc (30_encoding.md R80). -/
theorem fetch_readFrame (s : State) :
    (fetch s).Post (fun _ t => ReadFrame (s.setPc (s.pc + 1#16)) t) (fun t => ReadFrame s t ∧ t.fatal = some .kbdPollFail) := by
  refine (fetch_post s).mono (fun _ t ⟨ht, _⟩ => ⟨?_⟩) fun t ht => ⟨⟨?_⟩, ?_⟩ <;> rw [ht]
  rfl

/-! ## The registers and Running in the trap routines -/

/-- Operations that each keep Running keep it in sequence. -/
theorem Attempt.Post.seq_running {α β : Type} {s : State} {r : Attempt α} {k : α → State → Attempt β}
    (h : r.Post (fun _ t => t.running = s.running) (fun t => t.running = s.running))
    (hk : ∀ a t, (k a t).Post (fun _ u => u.running = t.running) (fun u => u.running = t.running)) :
    (r.andThen k).Post (fun _ t => t.running = s.running) (fun t => t.running = s.running) :=
  h.andThen fun a t ht => ht ▸ hk a t

/-- An operation that only writes to the console keeps Running. -/
theorem OutputFrame.post_running {α : Type} {s : State} {r : Attempt α}
    (h : r.Post (fun _ t => OutputFrame s t) (OutputFrame s)) :
    r.Post (fun _ t => t.running = s.running) (fun t => t.running = s.running) :=
  h.mono (fun _ _ ht => ht.running) fun _ ht => ht.running

/-- An operation that only writes to the console keeps every register. -/
theorem OutputFrame.post_regs {α : Type} {s : State} {r : Attempt α}
    (h : r.Post (fun _ t => OutputFrame s t) (OutputFrame s)) :
    r.Post (fun _ t => t.regs = s.regs) (fun t => t.regs = s.regs) :=
  h.mono (fun _ _ ht => ht.allRegs) fun _ ht => ht.allRegs

theorem readChar_running (s : State) :
    (readChar s).Post (fun _ t => t.running = s.running) (fun t => t.running = s.running) :=
  (readChar_post s).mono (fun _ _ ht => by rw [ht]) fun _ ht => by rw [ht]

theorem getcRoutine_running (s : State) :
    (getcRoutine s).Post (fun _ t => t.running = s.running) (fun t => t.running = s.running) :=
  (readChar_running s).seq_running fun _ _ => rfl

theorem inRoutine_running (s : State) :
    (inRoutine s).Post (fun _ t => t.running = s.running) (fun t => t.running = s.running) :=
  (OutputFrame.post_running (putAll_frame _ s)).seq_running fun _ t =>
  (OutputFrame.post_running (flush_frame t)).seq_running fun _ t =>
  (readChar_running t).seq_running fun _ t =>
  (OutputFrame.post_running (putc_frame _ t)).seq_running fun _ t =>
  (OutputFrame.post_running (flush_frame t)).seq_running fun _ _ => rfl

theorem haltRoutine_regs (s : State) :
    (haltRoutine s).Post (fun _ t => t.regs = s.regs) (fun t => t.regs = s.regs) :=
  (OutputFrame.post_regs (flush_frame s)).andThen fun _ _ ht => ht

/-- A TRAP that is neither GETC nor IN writes no register (43_trap.md R171). -/
theorem trapRoutine_regs {v : BitVec 8} (hgetc : v ≠ 0x20#8) (hin : v ≠ 0x23#8) (s : State) :
    (trapRoutine v s).Post (fun _ t => t.regs = s.regs) (fun t => t.regs = s.regs) := by
  unfold trapRoutine
  split
  case h_1 hv => exact absurd (BitVec.eq_of_toNat_eq hv) hgetc
  case h_2 => exact OutputFrame.post_regs (outRoutine_frame s)
  case h_3 => exact OutputFrame.post_regs (putsRoutine_frame s)
  case h_4 hv => exact absurd (BitVec.eq_of_toNat_eq hv) hin
  case h_5 => exact OutputFrame.post_regs (putspRoutine_frame s)
  case h_6 => exact haltRoutine_regs s
  case h_7 => rfl

/-- A TRAP that is not HALT keeps Running (43_trap.md R177). -/
theorem trapRoutine_running {v : BitVec 8} (hhalt : v ≠ 0x25#8) (s : State) :
    (trapRoutine v s).Post (fun _ t => t.running = s.running) (fun t => t.running = s.running) := by
  unfold trapRoutine
  split
  case h_1 => exact getcRoutine_running s
  case h_2 => exact OutputFrame.post_running (outRoutine_frame s)
  case h_3 => exact OutputFrame.post_running (putsRoutine_frame s)
  case h_4 => exact inRoutine_running s
  case h_5 => exact OutputFrame.post_running (putspRoutine_frame s)
  case h_6 hv => exact absurd (BitVec.eq_of_toNat_eq hv) hhalt
  case h_7 => rfl

/-! ## What an instruction can do -/

/-- What `i` can leave of `s`, by the way it ends. -/
inductive Effect (i : Instr) (s : State) : State → Prop
  /-- a flag-affecting instruction writes its result to DR, after the memory reads it makes, if any -/
  | result {u : State} (dr : Reg) (v : Word) (flags : affectsFlags i = true)
      (dest : ∀ r, mayWriteReg i r = true ↔ r = dr) (read : ReadFrame s u) : Effect i s (writeResult dr v u)
  /-- a store writes one word, after the memory read it makes, if any -/
  | store {u : State} (a v : Word) (flags : affectsFlags i = false) (read : ReadFrame s u) : Effect i s (u.setWord a v)
  /-- a memory read of the instruction raises -/
  | pollFail {u : State} (reads : readsMemory i = true) (read : ReadFrame s u) (code : u.fatal = some .kbdPollFail) :
      Effect i s u
  /-- BR, JMP, JSR and JSRR write pc, and of the registers at most the link -/
  | transfer (f : RegFile) (target : Word) (flags : affectsFlags i = false) (control : transfersControl i = true)
      (regs : ∀ r, mayWriteReg i r = false → f.get r = s.reg r) : Effect i s { s with regs := f, pc := target }
  /-- TRAP, its routines, and the no-ops -/
  | trap {t : State} (flags : affectsFlags i = false) (frame : TrapFrame s t)
      (regs : mayWriteReg i .R0 = false → t.regs = s.regs)
      (running : t.running = s.running ∨ i = .halt ∨ i = .trap 0x25#8) : Effect i s t

/-- A memory read by `i` either goes on within its frame or is the whole effect. -/
theorem memRead_effect {i : Instr} (hi : readsMemory i = true) {s u : State} (hu : ReadFrame s u) (a : Word) :
    (memRead a u).Post (fun _ t => ReadFrame s t) (Effect i s) :=
  (memRead_readFrame a u).mono (fun _ _ ht => hu.trans ht) fun _ ⟨ht, hcode⟩ => .pollFail hi (hu.trans ht) hcode

/-- A load ends by writing what it read. -/
theorem Attempt.Post.into_effect_result {i : Instr} {s t : State} {r : Attempt Word} {dr : Reg}
    (hr : r.Post (fun _ u => ReadFrame s u) (Effect i s)) (hflags : affectsFlags i = true)
    (hdest : ∀ q, mayWriteReg i q = true ↔ q = dr) (ht : r.into (fun v u => .next (writeResult dr v u)) = .next t) :
    Effect i s t :=
  hr.into (fun v _ _ hu h => by cases h; exact .result dr v hflags hdest hu) ht

/-- An instruction that runs the routine of a vector, and is named by that vector where the routine writes R0 or clears
Running. -/
theorem Effect.of_trapRoutine {i : Instr} {s t : State} (v : BitVec 8) (hflags : affectsFlags i = false)
    (hR0 : mayWriteReg i .R0 = false → v ≠ 0x20#8 ∧ v ≠ 0x23#8) (hhalt : v = 0x25#8 → i = .halt ∨ i = .trap 0x25#8)
    (h : (trapRoutine v s).finish = .next t) : Effect i s t := by
  refine .trap hflags ((trapRoutine_frame v s).finish h) (fun hw => ?_) ?_
  · obtain ⟨hgetc, hin⟩ := hR0 hw
    exact (trapRoutine_regs hgetc hin s).finish h
  · by_cases hv : v = 0x25#8
    · exact .inr (hhalt hv)
    · exact .inl ((trapRoutine_running hv s).finish h)

/-- RTI and RESERVED change nothing. -/
theorem Effect.nop {i : Instr} (hflags : affectsFlags i = false) (s : State) : Effect i s s :=
  .trap hflags (.refl s) (fun _ => rfl) (.inl rfl)

theorem reg_link_of_ne (s : State) {r : Reg} (h : r ≠ .R7) : (link s).reg r = s.reg r := by
  rw [link, State.reg_setReg, if_neg h]

/-- Every instruction with a next state has one of the effects. -/
theorem exec_effect (i : Instr) {s t : State} (h : exec i s = .next t) : Effect i s t := by
  cases i with
  | addReg dr | addImm dr | andReg dr | andImm dr | not dr | lea dr =>
    cases h
    exact .result dr _ rfl (by simp [mayWriteReg]) (.refl s)
  | ld dr | ldr dr =>
    exact (memRead_effect rfl (.refl s) _).into_effect_result rfl (by simp [mayWriteReg]) h
  | ldi dr off =>
    have hreads := (memRead_effect (i := .ldi dr off) rfl (.refl s) (pcRel off s)).andThen fun q _ hu =>
      memRead_effect rfl hu q
    exact hreads.into_effect_result rfl (by simp [mayWriteReg]) h
  | st | str =>
    cases h
    exact .store _ _ rfl (.refl s)
  | sti =>
    exact (memRead_effect rfl (.refl s) _).into (fun q u _ hu h => by cases h; exact .store q _ rfl hu) h
  | br =>
    cases h
    split <;> exact .transfer s.regs _ rfl rfl fun _ _ => rfl
  | jmp =>
    cases h
    exact .transfer s.regs _ rfl rfl fun _ _ => rfl
  | jsr | jsrr =>
    cases h
    exact .transfer (link s).regs _ rfl rfl fun r hr => reg_link_of_ne s (by simpa [mayWriteReg] using hr)
  | rti | reserved =>
    cases h
    exact .nop rfl s
  | trap v => exact .of_trapRoutine v rfl (by simp [mayWriteReg]) (fun hv => .inr (by rw [hv])) h
  | getc => exact .of_trapRoutine 0x20#8 rfl (by decide) (by decide) h
  | out => exact .of_trapRoutine 0x21#8 rfl (by decide) (by decide) h
  | puts => exact .of_trapRoutine 0x22#8 rfl (by decide) (by decide) h
  | inp => exact .of_trapRoutine 0x23#8 rfl (by decide) (by decide) h
  | putsp => exact .of_trapRoutine 0x24#8 rfl (by decide) (by decide) h
  | halt => exact .of_trapRoutine 0x25#8 rfl (by decide) (by decide) h

/-- Every step with a next state is a fetch that raises, or a fetch and then one instruction's effect. -/
theorem step_effect {s t : State} (h : step s = .next t) :
    (fetch s = .raised t ∧ ReadFrame s t) ∨
      ∃ w u, fetch s = .done w u ∧ ReadFrame (s.setPc (s.pc + 1#16)) u ∧ Effect (decode w) u t := by
  have hf := fetch_readFrame s
  rcases step_cases h with hfetch | ⟨w, u, hfetch, hexec⟩ <;> rw [hfetch] at hf
  · exact .inl ⟨hfetch, hf.1⟩
  · exact .inr ⟨w, u, hfetch, hf, exec_effect (decode w) hexec⟩

/-! ## Registers -/

/-- Settles O41: of the effects, only a result, a link and a routine's character write a register. -/
theorem registersChangeOnlyAsListed : Obligations.RegistersChangeOnlyAsListed := by
  intro i s t r h hw
  cases exec_effect i h with
  | @result u dr v _ dest read =>
    have hr : r ≠ dr := fun e => by simp [(dest r).2 e] at hw
    rw [reg_writeResult, if_neg hr, read.reg]
  | store a v _ read => exact read.reg r
  | pollFail _ read => exact read.reg r
  | transfer f target _ _ regs => exact regs r hw
  | trap _ frame regs =>
    by_cases hr : r = .R0
    · subst hr
      exact congrArg (RegFile.get · .R0) (regs hw)
    · exact frame.regs r hr

/-! ## The condition register -/

/-- An effect leaves `cond` as it was or sets it from a result. -/
theorem Effect.cond_eq_or {i : Instr} {s t : State} (h : Effect i s t) : t.cond = s.cond ∨ ∃ v, t.cond = condOf v := by
  cases h with
  | result dr v => exact .inr ⟨v, rfl⟩
  | store a v _ read => exact .inl read.cond
  | pollFail _ read => exact .inl read.cond
  | transfer => exact .inl rfl
  | trap _ frame => exact .inl frame.cond

/-- Settles O42: a result sets `cond` from its DR, and a flag-affecting instruction that ends otherwise has raised. -/
theorem condFollowsTheSevenInstructions : Obligations.CondFollowsTheSevenInstructions := by
  intro i s t h
  cases exec_effect i h with
  | @result u dr v flags dest read =>
    refine ⟨fun hf => by simp [flags] at hf, fun _ _ r hr => ?_⟩
    obtain rfl := (dest r).1 hr
    rw [cond_writeResult, reg_writeResult, if_pos rfl]
    rfl
  | store a v flags read => exact ⟨fun _ => read.cond, fun hf => by simp [flags] at hf⟩
  | pollFail _ read code => exact ⟨fun _ => read.cond, fun _ hfatal => by simp [code] at hfatal⟩
  | transfer f target flags => exact ⟨fun _ => rfl, fun hf => by simp [flags] at hf⟩
  | trap flags frame => exact ⟨fun _ => frame.cond, fun hf => by simp [flags] at hf⟩

/-- Settles O43: a step keeps `cond` or sets it by `condOf`, which is never NONE. -/
theorem condNeverReturnsToNone : Obligations.CondNeverReturnsToNone := by
  intro s t h hs
  rcases step_effect h with ⟨_, hread⟩ | ⟨w, u, _, hread, heffect⟩
  · rwa [hread.cond]
  · rcases heffect.cond_eq_or with hc | ⟨v, hc⟩ <;> rw [hc]
    · rwa [hread.cond]
    · exact condOf_ne_none v

/-! ## The program counter -/

/-- An effect of an instruction that transfers no control leaves pc. -/
theorem Effect.pc_eq {i : Instr} {s t : State} (h : Effect i s t) (hi : transfersControl i = false) : t.pc = s.pc := by
  cases h with
  | result dr v _ _ read => exact read.pc
  | store a v _ read => exact read.pc
  | pollFail _ read => exact read.pc
  | transfer f target _ control => simp [control] at hi
  | trap _ frame => exact frame.pc

theorem hostWrite_pc (a v : Word) (s : State) : (hostWrite a v s).pc = s.pc := by
  unfold hostWrite
  split <;> rfl

theorem placeWords_pc (a : Word) (ws : List Word) (s : State) : (placeWords a ws s).pc = s.pc := by
  induction ws generalizing a s with
  | nil => rfl
  | cons w rest ih => exact (ih (a + 1#16) (hostWrite a w s)).trans (hostWrite_pc a w s)

theorem loadImage_pc (image : Option (List Byte)) (s : State) : (loadImage image s).pc = s.pc := by
  unfold loadImage
  split
  · exact placeWords_pc _ _ s
  all_goals rfl

theorem loadImages_pc (images : List (Option (List Byte))) (s : State) : (loadImages images s).pc = s.pc := by
  induction images generalizing s with
  | nil => rfl
  | cons image rest ih =>
    unfold loadImages
    split
    · exact loadImage_pc image s
    · exact (ih (loadImage image s)).trans (loadImage_pc image s)

theorem releaseReset_pc (s : State) : (releaseReset s).pc = s.pc := by
  unfold releaseReset
  split <;> rfl

/-- After any boot pc is PC_START (70_reset_and_hazards.md R240): loading writes no pc. -/
theorem boot_pc (images : List (Option (List Byte))) (s : State) : (boot images s).pc = config.pcStart :=
  (releaseReset_pc _).trans (loadImages_pc images (assertReset s))

theorem exec_br_not_taken {n z p : Bool} {s : State} (h : branchTaken n z p s.cond = false) (off : BitVec 9) :
    exec (.br n z p off) s = .next s := by
  simp [exec, execBr, h]

/-- Settles O44: no effect but a transfer writes pc, so the pc a fetch leaves stays; and no part of a boot writes it. -/
theorem onlyControlTransfersWritePc : Obligations.OnlyControlTransfersWritePc := by
  refine ⟨rfl, fun images => boot_pc images State.reset, fun n z p off s hb => exec_br_not_taken hb off,
    fun i s t h hi => (exec_effect i h).pc_eq hi, fun s t w s' h hfetch hi => ?_⟩
  rcases step_effect h with ⟨hraised, _⟩ | ⟨w', u, hdone, hread, heffect⟩
  · cases hfetch.symm.trans hraised
  · cases hfetch.symm.trans hdone
    exact (heffect.pc_eq hi).trans hread.pc

/-! ## Running -/

/-- Only HALT, under either of its names, can change Running. -/
theorem Effect.running_eq_or {i : Instr} {s t : State} (h : Effect i s t) :
    t.running = s.running ∨ i = .halt ∨ i = .trap 0x25#8 := by
  cases h with
  | result dr v _ _ read => exact .inl read.running
  | store a v _ read => exact .inl read.running
  | pollFail _ read => exact .inl read.running
  | transfer => exact .inl rfl
  | trap _ _ _ running => exact running

theorem trapInstr_wellFormed (v : BitVec 8) : (trapInstr v).wellFormed = true := by
  revert v
  decide

/-- The decoder gives each routine its own constructor, never a plain TRAP (43_trap.md R170). -/
theorem decode_wellFormed (w : Word) : (decode w).wellFormed = true := by
  unfold decode
  cases opcodeAt (field w 12 4) with
  | trap => exact trapInstr_wellFormed _
  | add | jsr | and =>
    dsimp only
    split <;> rfl
  | _ => rfl

theorem decode_ne_trap_halt (w : Word) : decode w ≠ .trap 0x25#8 := fun h => by
  have hwf := decode_wellFormed w
  rw [h] at hwf
  exact absurd hwf (by decide)

/-- With Running false no step exists, and the outcome says so (log entry 3). -/
theorem step_of_not_running {s : State} (h : s.running = false) : ∃ f, step s = .fault f := by
  unfold step
  split
  · exact ⟨_, rfl⟩
  · split
    · exact ⟨_, rfl⟩
    · exact ⟨.halted, by simp [h]⟩

/-- Settles O46: a step begins with Running true and its fetch keeps it, so a step that ends with it false ran HALT. -/
theorem onlyHaltClearsRunning : Obligations.OnlyHaltClearsRunning := by
  refine ⟨rfl, fun s t => ⟨step_of_not_running, fun h ht => ?_⟩⟩
  obtain ⟨_, _, hrun⟩ := mayStep_of_next h
  refine ⟨hrun, ?_⟩
  rcases step_effect h with ⟨_, hread⟩ | ⟨w, u, hfetch, hread, heffect⟩
  · simp [hread.running, hrun] at ht
  · rcases heffect.running_eq_or with hkeep | hhalt | htrap
    · have hu : u.running = true := hread.running.trans hrun
      simp [hkeep, hu] at ht
    · exact ⟨w, u, hfetch, hhalt⟩
    · exact absurd htrap (decode_ne_trap_halt w)

end Sys2Proof.Machine

/-! The settled statements of 20_memory.md: plain reads and writes (R54, R56), which instructions can change memory
(R51, R58), and a stored word that the next fetch reads (R63). -/

namespace Sys2Proof.Machine

/-! ## Plain reads and writes -/

/-- Settles O8: only KBSR_ADDR has a read of its own. -/
theorem readElsewhereHasNoSideEffect : Obligations.ReadElsewhereHasNoSideEffect :=
  ⟨kbsr_ne_kbdr.symm, fun s _ ha => memRead_elsewhere ha s⟩

/-- Settles O9: the memory's read-after-write law, and `setWord` updates one field. -/
theorem writeStoresTheWordAndNothingElse : Obligations.WriteStoresTheWordAndNothingElse :=
  fun s a v => ⟨fun b => State.word_setWord s a b v, rfl⟩

/-! ## What can change memory -/

/-- At most the two keyboard words differ: what any `MemRead` leaves of memory (20_memory.md R55). -/
def KeyboardWordsOnly (s t : State) : Prop :=
  ∀ a, a ≠ config.kbsrAddr → a ≠ config.kbdrAddr → t.word a = s.word a

theorem KeyboardWordsOnly.of_mem_eq {s t : State} (h : t.mem = s.mem) : KeyboardWordsOnly s t :=
  fun a _ _ => congrArg (Memory.readWord · a) h

theorem KeyboardWordsOnly.trans {s t u : State} (h : KeyboardWordsOnly s t) (k : KeyboardWordsOnly t u) :
    KeyboardWordsOnly s u :=
  fun a hs hd => (k a hs hd).trans (h a hs hd)

/-- A read that completes writes at most the keyboard words, and one that raises writes none. -/
theorem memRead_keyboardWordsOnly (a : Word) (s : State) :
    (memRead a s).Post (fun _ t => KeyboardWordsOnly s t) (KeyboardWordsOnly s) :=
  (memRead_post a s).mono (fun _ _ ⟨_, _, _, hwords, _⟩ => hwords) fun _ ⟨_, ht⟩ => .of_mem_eq (by rw [ht])

/-- A load ends by writing no memory of its own. -/
theorem Attempt.Post.into_keyboardWordsOnly {s t : State} {r : Attempt Word} {dr : Reg}
    (hr : r.Post (fun _ u => KeyboardWordsOnly s u) (KeyboardWordsOnly s))
    (ht : r.into (fun v u => .next (writeResult dr v u)) = .next t) : KeyboardWordsOnly s t :=
  hr.into (fun _ _ _ hu h => by cases h; exact hu) ht

/-- LD, LDR and LDI change memory by their reads alone. -/
theorem exec_load_keyboardWordsOnly {i : Instr} {s t : State} (hstore : isStore i = false) (hreads : readsMemory i = true)
    (h : exec i s = .next t) : KeyboardWordsOnly s t := by
  cases i with
  | ld | ldr => exact (memRead_keyboardWordsOnly _ s).into_keyboardWordsOnly h
  | ldi dr off =>
    have hboth := (memRead_keyboardWordsOnly (pcRel off s) s).andThen fun q u hu =>
      (memRead_keyboardWordsOnly q u).mono (fun _ _ hv => hu.trans hv) fun _ hv => hu.trans hv
    exact hboth.into_keyboardWordsOnly h
  | sti => cases hstore
  | _ => cases hreads

/-- No trap routine writes memory (20_memory.md R51). -/
theorem mem_of_trapRoutine (v : BitVec 8) {s t : State} (h : (trapRoutine v s).finish = .next t) : t.mem = s.mem :=
  ((trapRoutine_frame v s).finish h).mem

/-- An instruction that neither stores nor reads memory leaves all of it. -/
theorem exec_mem_eq {i : Instr} {s t : State} (hstore : isStore i = false) (hreads : readsMemory i = false)
    (h : exec i s = .next t) : t.mem = s.mem := by
  cases i with
  | addReg | addImm | andReg | andImm | not | lea | jmp | jsr | jsrr | rti | reserved =>
    cases h
    rfl
  | br =>
    cases h
    split <;> rfl
  | ld | ldr | ldi | sti => cases hreads
  | st | str => cases hstore
  | trap v => exact mem_of_trapRoutine v h
  | getc => exact mem_of_trapRoutine 0x20#8 h
  | out => exact mem_of_trapRoutine 0x21#8 h
  | puts => exact mem_of_trapRoutine 0x22#8 h
  | inp => exact mem_of_trapRoutine 0x23#8 h
  | putsp => exact mem_of_trapRoutine 0x24#8 h
  | halt => exact mem_of_trapRoutine 0x25#8 h

/-- Settles O45: what is not a store is a load, which writes by its refreshes alone, or touches no memory. -/
theorem memoryChangesOnlyByStoresAndRefresh : Obligations.MemoryChangesOnlyByStoresAndRefresh := by
  intro i s t h hstore
  refine ⟨?_, fun hreads => exec_mem_eq hstore hreads h⟩
  cases hreads : readsMemory i with
  | true => exact exec_load_keyboardWordsOnly hstore hreads h
  | false => exact KeyboardWordsOnly.of_mem_eq (exec_mem_eq hstore hreads h)

/-! ## A stored word is the next one fetched -/

/-- Away from KBSR_ADDR a step runs the word stored at pc, with pc moved past it (30_encoding.md R80). -/
theorem step_elsewhere {s : State} (hmay : s.mayStep) (hpc : s.pc ≠ config.kbsrAddr) :
    step s = exec (decode (s.word s.pc)) (s.setPc (s.pc + 1#16)) := by
  obtain ⟨hrst, hfatal, hrun⟩ := hmay
  rw [step_mayStep hrst hfatal hrun, fetch_elsewhere hpc, Attempt.into_done]

theorem decode_encode_st (sr : Reg) (off : BitVec 9) : decode (encode (.st sr off)) = .st sr off := by
  simp only [encode, decode, fieldDR, encodeOff9_opcode, encodeOff9_reg, encodeOff9_off, opcodeAt_opcodeBits,
    regAt_regBits]

/-- Offset 0 names the word after the instruction (10_state.md R37). -/
theorem pcRel_zero (s : State) : pcRel 0#9 s = s.pc := by
  have hsext : sext 0#9 = 0#16 := by decide
  rw [pcRel, hsext, BitVec.add_zero]

/-- Settles O24: ST with offset 0 stores at the pc its own fetch has left, where the next fetch reads. -/
theorem nextStepFetchesTheStoredWord : Obligations.NextStepFetchesTheStoredWord := by
  intro s sr hmay hpc hnext hword
  have hst : step s = .next ((s.setPc (s.pc + 1#16)).setWord (s.pc + 1#16) (s.reg sr)) := by
    rw [step_elsewhere hmay hpc, hword, decode_encode_st]
    simp only [exec, execSt, pcRel_zero, State.setPc_pc, State.reg_setPc]
  refine ⟨_, hst, by simp, ?_⟩
  rw [step_elsewhere]
  · simp only [State.setWord_pc, State.setPc_pc, State.word_setWord, if_true, BitVec.add_assoc]
    rfl
  · exact hmay
  · exact hnext

end Sys2Proof.Machine

/-! The settled statements of 30_encoding.md: the step (R80), the fields the decoder reads for each form (R82 to R90), and
the bits it ignores (R91). -/

namespace Sys2Proof.Machine

/-! ## The step -/

/-- Settles O2: away from KBSR_ADDR the fetch is a plain read of the word at pc. -/
theorem stepIsExecOfTheDecodedWord : Obligations.StepIsExecOfTheDecodedWord := by
  intro s i hmay hpc hdecode
  rw [step_elsewhere hmay hpc, hdecode]
  rfl

/-- Where no step exists the outcome is a fault: for `rst`, for a fatal code, or for Running false (log entry 3). -/
theorem step_of_not_mayStep {s : State} (h : ¬ s.mayStep) : ∃ f, step s = .fault f := by
  cases hrst : s.rst with
  | true => exact ⟨.heldInReset, by simp [step, hrst]⟩
  | false =>
    cases hfatal : s.fatal with
    | some c => exact ⟨.stoppedByFatal c, by simp [step, hrst, hfatal]⟩
    | none =>
      have hrun : s.running ≠ true := fun hrun => h ⟨hrst, hfatal, hrun⟩
      exact step_of_not_running (Bool.eq_false_of_not_eq_true hrun)

/-- Settles O1: a step is the read at pc, the increment and the decoded instruction in turn, and the read keeps pc. -/
theorem stepFetchesIncrementsAndExecutes : Obligations.StepFetchesIncrementsAndExecutes := by
  intro s
  have hread := memRead_readFrame s.pc s
  have hstep : s.mayStep → step s = (fetch s).into fun w s' => exec (decode w) s' :=
    fun ⟨hrst, hfatal, hrun⟩ => step_mayStep hrst hfatal hrun
  refine ⟨fun hmay w s' hdone => ?_, fun hmay s' hraised => ?_, step_of_not_mayStep⟩
  · rw [hdone, Attempt.post_done] at hread
    refine ⟨hread.pc, ?_⟩
    rw [hstep hmay, fetch, hdone, Attempt.andThen_done, Attempt.into_done, hread.pc]
    rfl
  · rw [hraised, Attempt.post_raised] at hread
    obtain ⟨hframe, _⟩ := hread
    refine ⟨hframe.pc, ?_⟩
    rw [hstep hmay, fetch, hraised, Attempt.andThen_raised, Attempt.into_raised]

/-! ## Words that agree under a mask -/

/-- Words that agree under a mask have the same fields where the mask is all ones. -/
theorem field_congr {w w' m : Word} (h : w &&& m = w' &&& m) {lo n : Nat} (hm : field m lo n = BitVec.allOnes n) :
    field w lo n = field w' lo n := by
  have hfield : field (w &&& m) lo n = field (w' &&& m) lo n := congrArg (field · lo n) h
  unfold field at hm hfield ⊢
  rwa [BitVec.extractLsb'_and, BitVec.extractLsb'_and, hm, BitVec.and_allOnes, BitVec.and_allOnes] at hfield

/-- They have the same bits where the mask has a one. -/
theorem bit_congr {w w' m : Word} (h : w &&& m = w' &&& m) {i : Nat} (hm : bit m i = true) : bit w i = bit w' i := by
  have hbit : bit (w &&& m) i = bit (w' &&& m) i := congrArg (bit · i) h
  unfold bit at hm hbit ⊢
  rwa [BitVec.getLsbD_and, BitVec.getLsbD_and, hm, Bool.and_true, Bool.and_true] at hbit

/-- A word that matches a row (mask, match) agrees with the match under the mask. -/
theorem agrees_of_row {w m v : Word} (h : w &&& m = v) : w &&& m = v &&& m := by
  rw [← h, BitVec.and_assoc, BitVec.and_self]

/-- The operation of a word that matches a row is the one the match names. -/
theorem opcodeAt_of_row {w m v : Word} (h : w &&& m = v) (hm : field m 12 4 = BitVec.allOnes 4) :
    opcodeAt (field w 12 4) = opcodeAt (field v 12 4) :=
  congrArg opcodeAt (field_congr (agrees_of_row h) hm)

theorem bit_of_row {w m v : Word} (h : w &&& m = v) {i : Nat} (hm : bit m i = true) : bit w i = bit v i :=
  bit_congr (agrees_of_row h) hm

/-! ## What a word of each form decodes to -/

section Forms

variable {w : Word}

theorem decode_br (h : opcodeAt (field w 12 4) = .br) :
    decode w = .br (bit w 11) (bit w 10) (bit w 9) (field w 0 9) := by simp only [decode, h]

theorem decode_addReg (h : opcodeAt (field w 12 4) = .add) (h5 : bit w 5 = false) :
    decode w = .addReg (fieldDR w) (fieldSR1 w) (fieldSR2 w) := by simp [decode, h, h5]

theorem decode_addImm (h : opcodeAt (field w 12 4) = .add) (h5 : bit w 5 = true) :
    decode w = .addImm (fieldDR w) (fieldSR1 w) (field w 0 5) := by simp [decode, h, h5]

theorem decode_ld (h : opcodeAt (field w 12 4) = .ld) : decode w = .ld (fieldDR w) (field w 0 9) := by simp only [decode, h]

theorem decode_st (h : opcodeAt (field w 12 4) = .st) : decode w = .st (fieldDR w) (field w 0 9) := by simp only [decode, h]

theorem decode_jsr (h : opcodeAt (field w 12 4) = .jsr) (h11 : bit w 11 = true) : decode w = .jsr (field w 0 11) := by
  simp [decode, h, h11]

theorem decode_jsrr (h : opcodeAt (field w 12 4) = .jsr) (h11 : bit w 11 = false) : decode w = .jsrr (fieldSR1 w) := by
  simp [decode, h, h11]

theorem decode_andReg (h : opcodeAt (field w 12 4) = .and) (h5 : bit w 5 = false) :
    decode w = .andReg (fieldDR w) (fieldSR1 w) (fieldSR2 w) := by simp [decode, h, h5]

theorem decode_andImm (h : opcodeAt (field w 12 4) = .and) (h5 : bit w 5 = true) :
    decode w = .andImm (fieldDR w) (fieldSR1 w) (field w 0 5) := by simp [decode, h, h5]

theorem decode_ldr (h : opcodeAt (field w 12 4) = .ldr) : decode w = .ldr (fieldDR w) (fieldSR1 w) (field w 0 6) := by
  simp only [decode, h]

theorem decode_str (h : opcodeAt (field w 12 4) = .str) : decode w = .str (fieldDR w) (fieldSR1 w) (field w 0 6) := by
  simp only [decode, h]

theorem decode_rti (h : opcodeAt (field w 12 4) = .rti) : decode w = .rti := by simp only [decode, h]

theorem decode_not (h : opcodeAt (field w 12 4) = .not) : decode w = .not (fieldDR w) (fieldSR1 w) := by
  simp only [decode, h]

theorem decode_ldi (h : opcodeAt (field w 12 4) = .ldi) : decode w = .ldi (fieldDR w) (field w 0 9) := by
  simp only [decode, h]

theorem decode_sti (h : opcodeAt (field w 12 4) = .sti) : decode w = .sti (fieldDR w) (field w 0 9) := by
  simp only [decode, h]

theorem decode_jmp (h : opcodeAt (field w 12 4) = .jmp) : decode w = .jmp (fieldSR1 w) := by simp only [decode, h]

theorem decode_reserved (h : opcodeAt (field w 12 4) = .reserved) : decode w = .reserved := by simp only [decode, h]

theorem decode_lea (h : opcodeAt (field w 12 4) = .lea) : decode w = .lea (fieldDR w) (field w 0 9) := by
  simp only [decode, h]

theorem decode_trap (h : opcodeAt (field w 12 4) = .trap) : decode w = trapInstr (field w 0 8) := by simp only [decode, h]

end Forms

/-- Settles O54: a row's mask covers the opcode and the mode bit, so its match decides both, and with them the form. -/
theorem decoderReadsTheFieldsOfEachForm : Obligations.DecoderReadsTheFieldsOfEachForm := by
  intro w
  exact ⟨fun h => decode_br (opcodeAt_of_row h rfl),
    fun h => decode_addReg (opcodeAt_of_row h rfl) (bit_of_row h rfl),
    fun h => decode_addImm (opcodeAt_of_row h rfl) (bit_of_row h rfl),
    fun h => decode_ld (opcodeAt_of_row h rfl),
    fun h => decode_st (opcodeAt_of_row h rfl),
    fun h => decode_jsr (opcodeAt_of_row h rfl) (bit_of_row h rfl),
    fun h => decode_jsrr (opcodeAt_of_row h rfl) (bit_of_row h rfl),
    fun h => decode_andReg (opcodeAt_of_row h rfl) (bit_of_row h rfl),
    fun h => decode_andImm (opcodeAt_of_row h rfl) (bit_of_row h rfl),
    fun h => decode_ldr (opcodeAt_of_row h rfl),
    fun h => decode_str (opcodeAt_of_row h rfl),
    fun h => decode_rti (opcodeAt_of_row h rfl),
    fun h => decode_not (opcodeAt_of_row h rfl),
    fun h => decode_ldi (opcodeAt_of_row h rfl),
    fun h => decode_sti (opcodeAt_of_row h rfl),
    fun h => decode_jmp (opcodeAt_of_row h rfl),
    fun h => decode_reserved (opcodeAt_of_row h rfl),
    fun h => decode_lea (opcodeAt_of_row h rfl),
    fun h => decode_trap (opcodeAt_of_row h rfl)⟩

/-! ## The bits a form reads -/

section Agreement

variable {w w' m : Word} (h : w &&& m = w' &&& m)
include h

theorem fieldDR_congr (hm : field m 9 3 = BitVec.allOnes 3) : fieldDR w = fieldDR w' := congrArg regAt (field_congr h hm)

theorem fieldSR1_congr (hm : field m 6 3 = BitVec.allOnes 3) : fieldSR1 w = fieldSR1 w' := congrArg regAt (field_congr h hm)

theorem fieldSR2_congr (hm : field m 0 3 = BitVec.allOnes 3) : fieldSR2 w = fieldSR2 w' := congrArg regAt (field_congr h hm)

end Agreement

@[simp] theorem readMask_trapInstr (v : BitVec 8) : (trapInstr v).readMask = 0xF0FF#16 := by
  revert v
  decide

/-- Every form reads the opcode. -/
theorem field_readMask_opcode (i : Instr) : field i.readMask 12 4 = BitVec.allOnes 4 := by
  cases i <;> dsimp only [Instr.readMask] <;> rfl

/-- Where a form reads all sixteen bits, agreement on them is equality. -/
theorem eq_of_full_readMask {i : Instr} {w w' : Word} (hfull : i.readMask = 0xFFFF#16)
    (h : w &&& i.readMask = w' &&& i.readMask) : w = w' := by
  have hones : i.readMask = BitVec.allOnes 16 := hfull
  rwa [hones, BitVec.and_allOnes, BitVec.and_allOnes] at h

/-- Words that agree on the bits the form of the first reads decode alike: where the form reads every bit they are equal,
and elsewhere they have the same fields. -/
theorem decode_eq_of_agrees {w w' : Word} (h : w &&& (decode w).readMask = w' &&& (decode w).readMask) :
    decode w' = decode w := by
  have hop' : opcodeAt (field w' 12 4) = opcodeAt (field w 12 4) :=
    congrArg opcodeAt (field_congr h (field_readMask_opcode _)).symm
  cases hop : opcodeAt (field w 12 4) with
  | br | ld | st | ldr | str | ldi | sti | lea =>
    have hfull : (decode w).readMask = 0xFFFF#16 := by
      simp only [decode_br, decode_ld, decode_st, decode_ldr, decode_str, decode_ldi, decode_sti, decode_lea, hop,
        Instr.readMask]
    rw [eq_of_full_readMask hfull h]
  | add | and =>
    cases h5 : bit w 5 with
    | true =>
      have hfull : (decode w).readMask = 0xFFFF#16 := by simp only [decode_addImm, decode_andImm, hop, h5, Instr.readMask]
      rw [eq_of_full_readMask hfull h]
    | false =>
      simp only [decode_addReg, decode_andReg, hop, h5, Instr.readMask] at h
      have h5' : bit w' 5 = false := (bit_congr h rfl).symm.trans h5
      simp only [decode_addReg, decode_andReg, hop', hop, h5, h5', fieldDR_congr h rfl, fieldSR1_congr h rfl,
        fieldSR2_congr h rfl]
  | jsr =>
    cases h11 : bit w 11 with
    | true =>
      have hfull : (decode w).readMask = 0xFFFF#16 := by rw [decode_jsr hop h11, Instr.readMask]
      rw [eq_of_full_readMask hfull h]
    | false =>
      rw [decode_jsrr hop h11, Instr.readMask] at h
      have h11' : bit w' 11 = false := (bit_congr h rfl).symm.trans h11
      rw [decode_jsrr hop h11, decode_jsrr (hop'.trans hop) h11', fieldSR1_congr h rfl]
  | not =>
    rw [decode_not hop, Instr.readMask] at h
    rw [decode_not hop, decode_not (hop'.trans hop), fieldDR_congr h rfl, fieldSR1_congr h rfl]
  | jmp =>
    rw [decode_jmp hop, Instr.readMask] at h
    rw [decode_jmp hop, decode_jmp (hop'.trans hop), fieldSR1_congr h rfl]
  | trap =>
    rw [decode_trap hop, readMask_trapInstr] at h
    rw [decode_trap hop, decode_trap (hop'.trans hop), field_congr h rfl]
  | rti => rw [decode_rti hop, decode_rti (hop'.trans hop)]
  | reserved => rw [decode_reserved hop, decode_reserved (hop'.trans hop)]

/-! ## The canonical word of a decoded word -/

/-- Neighbouring fields of a word join to one field. -/
theorem field_append (w : Word) {hi lo m n : Nat} (h : hi = lo + n) :
    field w hi m ++ field w lo n = field w lo (m + n) := BitVec.extractLsb'_append_extractLsb'_eq_extractLsb' h

theorem field_full (w : Word) : field w 0 16 = w := BitVec.extractLsb'_eq_self

theorem ofBool_bit (w : Word) (i : Nat) : BitVec.ofBool (bit w i) = field w i 1 := by
  apply BitVec.eq_of_getLsbD_eq
  intro j hj
  obtain rfl : j = 0 := by omega
  simp [bit, field]

theorem ofBool_eq_field {w : Word} {i : Nat} {b : Bool} (h : bit w i = b) : BitVec.ofBool b = field w i 1 := by
  rw [← h, ofBool_bit]

theorem opcodeBits_of_opcodeAt {b : BitVec 4} {o : Opcode} (h : opcodeAt b = o) : opcodeBits o = b := by
  rw [← h, opcodeBits_opcodeAt]

/-- Agreement under a mask is agreement of the parts under the mask's parts. -/
theorem append_and_congr {m n : Nat} {a a' p : BitVec m} {b b' q : BitVec n} (ha : a &&& p = a' &&& p)
    (hb : b &&& q = b' &&& q) : (a ++ b) &&& (p ++ q) = (a' ++ b') &&& (p ++ q) := by
  rw [BitVec.and_append, BitVec.and_append, ha, hb]

/-- Under a mask of zeros any two values agree. -/
theorem and_zero_congr {n : Nat} (x x' : BitVec n) : x &&& 0#n = x' &&& 0#n := by
  rw [BitVec.and_zero, BitVec.and_zero]

/-! A layout filled with a word's own fields is that word, where it has ignored bits under the form's mask. -/

section Layouts

variable {w : Word} {o : Opcode} (hop : opcodeAt (field w 12 4) = o)
include hop

theorem encodeOff9_fields : encodeOff9 o (fieldDR w) (field w 0 9) = w := by
  simp only [encodeOff9, fieldDR, opcodeBits_of_opcodeAt hop, regBits_regAt, field_append]
  exact field_full w

theorem encodeLow6_fields : encodeLow6 o (fieldDR w) (fieldSR1 w) (field w 0 6) = w := by
  simp only [encodeLow6, fieldDR, fieldSR1, opcodeBits_of_opcodeAt hop, regBits_regAt, field_append]
  exact field_full w

theorem encodeOpImm_fields (h5 : bit w 5 = true) : encodeOpImm o (fieldDR w) (fieldSR1 w) (field w 0 5) = w := by
  have hmode : 1#1 = field w 5 1 := ofBool_eq_field h5
  simp only [encodeOpImm, fieldDR, fieldSR1, opcodeBits_of_opcodeAt hop, regBits_regAt, hmode, field_append]
  exact field_full w

theorem encodeOpReg_fields (h5 : bit w 5 = false) :
    encodeOpReg o (fieldDR w) (fieldSR1 w) (fieldSR2 w) &&& 0xFFE7#16 = w &&& 0xFFE7#16 := by
  have hmode : 0#1 = field w 5 1 := ofBool_eq_field h5
  have hw : field w 12 4 ++ field w 9 3 ++ field w 6 3 ++ field w 5 1 ++ field w 3 2 ++ field w 0 3 = w := by
    simp only [field_append]
    exact field_full w
  simp only [encodeOpReg, fieldDR, fieldSR1, fieldSR2, opcodeBits_of_opcodeAt hop, regBits_regAt, hmode]
  conv_rhs => rw [← hw]
  exact append_and_congr (p := 0x7FF#11 ++ 0#2) (q := 0x7#3) (append_and_congr rfl (and_zero_congr _ _)) rfl

theorem encodeLow6_ones_fields : encodeLow6 o (fieldDR w) (fieldSR1 w) 0b111111#6 &&& 0xFFC0#16 = w &&& 0xFFC0#16 := by
  conv_rhs => rw [← encodeLow6_fields hop]
  exact append_and_congr (p := 0x3FF#10) (q := 0#6) rfl (and_zero_congr _ _)

theorem br_fields :
    opcodeBits o ++ BitVec.ofBool (bit w 11) ++ BitVec.ofBool (bit w 10) ++ BitVec.ofBool (bit w 9) ++ field w 0 9 = w := by
  simp only [opcodeBits_of_opcodeAt hop, ofBool_bit, field_append]
  exact field_full w

theorem jsr_fields (h11 : bit w 11 = true) : opcodeBits o ++ 1#1 ++ field w 0 11 = w := by
  have hmode : 1#1 = field w 11 1 := ofBool_eq_field h11
  simp only [opcodeBits_of_opcodeAt hop, hmode, field_append]
  exact field_full w

theorem jsrr_fields (h11 : bit w 11 = false) :
    (opcodeBits o ++ 0#1 ++ 0#2 ++ regBits (fieldSR1 w) ++ 0#6) &&& 0xF9C0#16 = w &&& 0xF9C0#16 := by
  have hmode : 0#1 = field w 11 1 := ofBool_eq_field h11
  have hw : opcodeBits o ++ 0#1 ++ field w 9 2 ++ regBits (fieldSR1 w) ++ field w 0 6 = w := by
    simp only [opcodeBits_of_opcodeAt hop, hmode, fieldSR1, regBits_regAt, field_append]
    exact field_full w
  conv_rhs => rw [← hw]
  exact append_and_congr (p := 0x1F#5 ++ 0#2 ++ 0x7#3) (q := 0#6)
    (append_and_congr (append_and_congr rfl (and_zero_congr _ _)) rfl) (and_zero_congr _ _)

theorem jmp_fields : (opcodeBits o ++ 0#3 ++ regBits (fieldSR1 w) ++ 0#6) &&& 0xF1C0#16 = w &&& 0xF1C0#16 := by
  have hw : opcodeBits o ++ field w 9 3 ++ regBits (fieldSR1 w) ++ field w 0 6 = w := by
    simp only [opcodeBits_of_opcodeAt hop, fieldSR1, regBits_regAt, field_append]
    exact field_full w
  conv_rhs => rw [← hw]
  exact append_and_congr (p := 0xF#4 ++ 0#3 ++ 0x7#3) (q := 0#6)
    (append_and_congr (append_and_congr rfl (and_zero_congr _ _)) rfl) (and_zero_congr _ _)

theorem opcodeOnly_fields : (opcodeBits o ++ 0#12) &&& 0xF000#16 = w &&& 0xF000#16 := by
  have hw : opcodeBits o ++ field w 0 12 = w := by
    simp only [opcodeBits_of_opcodeAt hop, field_append]
    exact field_full w
  conv_rhs => rw [← hw]
  exact append_and_congr (p := 0xF#4) (q := 0#12) rfl (and_zero_congr _ _)

end Layouts

theorem encodeTrap_fields {w : Word} (hop : opcodeAt (field w 12 4) = .trap) :
    encodeTrap (field w 0 8) &&& 0xF0FF#16 = w &&& 0xF0FF#16 := by
  have hw : opcodeBits .trap ++ field w 8 4 ++ field w 0 8 = w := by
    simp only [opcodeBits_of_opcodeAt hop, field_append]
    exact field_full w
  conv_rhs => rw [← hw]
  exact append_and_congr (p := 0xF#4 ++ 0#4) (q := 0xFF#8) (append_and_congr rfl (and_zero_congr _ _)) rfl

@[simp] theorem encode_trapInstr (v : BitVec 8) : encode (trapInstr v) = encodeTrap v := by
  revert v
  decide

/-- A word agrees with its canonical word on the bits its form reads. -/
theorem encode_decode_agrees (w : Word) : encode (decode w) &&& (decode w).readMask = w &&& (decode w).readMask := by
  cases hop : opcodeAt (field w 12 4) with
  | br => rw [decode_br hop, encode, br_fields hop]
  | ld | st | ldi | sti | lea =>
    simp only [decode_ld, decode_st, decode_ldi, decode_sti, decode_lea, hop, encode, encodeOff9_fields hop]
  | ldr | str => simp only [decode_ldr, decode_str, hop, encode, encodeLow6_fields hop]
  | add | and =>
    cases h5 : bit w 5 with
    | true => simp only [decode_addImm, decode_andImm, hop, h5, encode, encodeOpImm_fields hop h5]
    | false =>
      simp only [decode_addReg, decode_andReg, hop, h5, encode, Instr.readMask, encodeOpReg_fields hop h5]
  | jsr =>
    cases h11 : bit w 11 with
    | true => rw [decode_jsr hop h11, encode, jsr_fields hop h11]
    | false =>
      rw [decode_jsrr hop h11]
      exact jsrr_fields hop h11
  | not =>
    rw [decode_not hop]
    exact encodeLow6_ones_fields hop
  | jmp =>
    rw [decode_jmp hop]
    exact jmp_fields hop
  | trap =>
    rw [decode_trap hop, encode_trapInstr, readMask_trapInstr]
    exact encodeTrap_fields hop
  | rti =>
    rw [decode_rti hop]
    exact opcodeOnly_fields hop
  | reserved =>
    rw [decode_reserved hop]
    exact opcodeOnly_fields hop

/-- Settles O53: the two halves of R91, for words of one form and for a word and its canonical word. -/
theorem ignoredBitsDoNotMatter : Obligations.IgnoredBitsDoNotMatter :=
  ⟨fun _ _ => decode_eq_of_agrees, fun w => ⟨decode_wellFormed w, encode_decode_agrees w⟩⟩

end Sys2Proof.Machine

/-! The settled statements of 40_operate.md: ADD, AND and NOT write their result and set `cond` from it (R100 to R104), and
NOT then ADD #1 negates (R105). -/

namespace Sys2Proof.Machine

/-! ## What each operate instruction writes -/

theorem exec_addReg (dr sr1 sr2 : Reg) (s : State) :
    exec (.addReg dr sr1 sr2) s = .next (writeResult dr (s.reg sr1 + s.reg sr2) s) := rfl

theorem exec_addImm (dr sr1 : Reg) (imm : BitVec 5) (s : State) :
    exec (.addImm dr sr1 imm) s = .next (writeResult dr (s.reg sr1 + imm.signExtend 16) s) := by
  rw [← sext_eq_signExtend imm (by decide)]
  rfl

theorem exec_andReg (dr sr1 sr2 : Reg) (s : State) :
    exec (.andReg dr sr1 sr2) s = .next (writeResult dr (s.reg sr1 &&& s.reg sr2) s) := rfl

theorem exec_andImm (dr sr1 : Reg) (imm : BitVec 5) (s : State) :
    exec (.andImm dr sr1 imm) s = .next (writeResult dr (s.reg sr1 &&& imm.signExtend 16) s) := by
  rw [← sext_eq_signExtend imm (by decide)]
  rfl

theorem exec_not (dr sr : Reg) (s : State) : exec (.not dr sr) s = .next (writeResult dr (~~~(s.reg sr)) s) := rfl

/-- An instruction that ends by writing its result in `s'` completes with it: `writeResult` has the value, the flag and the
frame that R12 asks for. -/
theorem CompletesWith.of_writeResult {i : Instr} {s s' : State} {dr : Reg} {v : Word}
    (h : exec i s = .next (writeResult dr v s')) : CompletesWith i s s' dr v :=
  ⟨writeResult dr v s', h, fun r => reg_writeResult s' dr r v, cond_writeResult s' dr v, word_writeResult s' dr v,
    writeResult_frame s' dr v⟩

/-- Settles O12: both modes of ADD end by writing their sum. -/
theorem addWritesTheSumAndSetsCond : Obligations.AddWritesTheSumAndSetsCond :=
  fun dr sr1 sr2 imm s => ⟨.of_writeResult (exec_addReg dr sr1 sr2 s), .of_writeResult (exec_addImm dr sr1 imm s)⟩

/-- Settles O13: both modes of AND end by writing their conjunction. -/
theorem andWritesTheConjunctionAndSetsCond : Obligations.AndWritesTheConjunctionAndSetsCond :=
  fun dr sr1 sr2 imm s => ⟨.of_writeResult (exec_andReg dr sr1 sr2 s), .of_writeResult (exec_andImm dr sr1 imm s)⟩

/-- Settles O14: NOT ends by writing the complement. -/
theorem notWritesTheComplementAndSetsCond : Obligations.NotWritesTheComplementAndSetsCond :=
  fun dr sr s => .of_writeResult (exec_not dr sr s)

/-! ## Negation -/

/-- An instruction that completes with `v` leaves `v` in DR, whatever name its next state goes by. -/
theorem CompletesWith.reg_eq {i : Instr} {s s' t : State} {dr : Reg} {v : Word} (h : CompletesWith i s s' dr v)
    (ht : exec i s = .next t) : t.reg dr = v := by
  obtain ⟨t', ht', hreg, -⟩ := h
  cases ht.symm.trans ht'
  rw [hreg, if_pos rfl]

/-- Settles O15: the two instructions leave `~~~x + 1`, which is `-x`, in DR; and 0x8000 is its own negation. -/
theorem notThenAddOneNegates : Obligations.NotThenAddOneNegates := by
  intro dr sr s t u hnot hadd
  have ht : t.reg dr = ~~~(s.reg sr) := (notWritesTheComplementAndSetsCond dr sr s).reg_eq hnot
  have hu : u.reg dr = t.reg dr + (1#5).signExtend 16 := (addWritesTheSumAndSetsCond dr dr dr 1#5 t).2.reg_eq hadd
  have hneg : u.reg dr = 0x0000#16 - s.reg sr := by
    calc u.reg dr = ~~~(s.reg sr) + 1#16 := by rw [hu, ht]; rfl
      _ = -(s.reg sr) := (BitVec.neg_eq_not_add (s.reg sr)).symm
      _ = 0x0000#16 - s.reg sr := (BitVec.zero_sub (s.reg sr)).symm
  refine ⟨hneg, fun hsr => ?_⟩
  rw [hneg, hsr]
  rfl

end Sys2Proof.Machine

/-! The settled statements of 41_control.md: BR and its test (R120), JMP (R121), and the calls JSR and JSRR with their
link (R122, R123). -/

namespace Sys2Proof.Machine

/-! ## Where each control transfer goes -/

theorem pcRel_eq_signExtend {n : Nat} (off : BitVec n) (h16 : n ≤ 16) (s : State) :
    pcRel off s = s.pc + off.signExtend 16 := by
  rw [pcRel, sext_eq_signExtend off h16]

/-- A BR only sets pc: to its target when it is taken, to the incremented pc it already holds when it is not. -/
theorem exec_br (n z p : Bool) (off : BitVec 9) (s : State) :
    exec (.br n z p off) s =
      .next { s with pc := if branchTaken n z p s.cond then s.pc + off.signExtend 16 else s.pc } := by
  cases htaken : branchTaken n z p s.cond with
  | true =>
    rw [← pcRel_eq_signExtend off (by decide) s]
    simp only [exec, execBr, htaken, if_true]
    rfl
  | false =>
    rw [exec_br_not_taken htaken off]
    rfl

theorem exec_jmp (base : Reg) (s : State) : exec (.jmp base) s = .next (s.setPc (s.reg base)) := rfl

theorem exec_jsr (off : BitVec 11) (s : State) :
    exec (.jsr off) s = .next ((link s).setPc (s.pc + off.signExtend 16)) := by
  rw [← pcRel_eq_signExtend off (by decide) s]
  rfl

/-- The link leaves the incremented pc in R7 and every other register as it was. -/
theorem reg_link (s : State) (r : Reg) : (link s).reg r = if r = .R7 then s.pc else s.reg r :=
  State.reg_setReg s .R7 r s.pc

theorem exec_jsrr (base : Reg) (s : State) :
    exec (.jsrr base) s = .next ((link s).setPc (if base = .R7 then s.pc else s.reg base)) := by
  rw [← reg_link s base]
  rfl

/-! ## The branch test -/

/-- A branch is taken when a requested flag is the one `cond` holds. -/
theorem branchTaken_iff (n z p : Bool) (c : Cond) :
    branchTaken n z p c = true ↔ (n = true ∧ c = .neg) ∨ (z = true ∧ c = .zero) ∨ (p = true ∧ c = .pos) := by
  simp only [branchTaken, Bool.or_eq_true, Bool.and_eq_true, decide_eq_true_eq, or_assoc]

/-- The same test on the hardware's bits: the flag bits and `cond[2:0]` have a one in common (10_state.md R34). -/
theorem branchTaken_iff_bits (n z p : Bool) (c : Cond) :
    branchTaken n z p c = true ↔ (BitVec.ofBool n ++ BitVec.ofBool z ++ BitVec.ofBool p) &&& c.bits ≠ 0b000#3 := by
  cases c <;> revert n z p <;> decide

/-- The flag bits of a BR word, joined again, are its bits 11:9. -/
theorem flagBits_eq_field (w : Word) :
    BitVec.ofBool (bit w 11) ++ BitVec.ofBool (bit w 10) ++ BitVec.ofBool (bit w 9) = field w 9 3 := by
  simp only [ofBool_bit, field_append]

/-- Settles O25: the one field a BR writes, with the test spelled out. -/
theorem brBranchesOnARequestedFlag : Obligations.BrBranchesOnARequestedFlag := by
  intro n z p off s
  rw [exec_br]
  simp only [branchTaken_iff]

/-- Settles O26: the decoder hands BR the bits of `w[11:9]`, and the test on them is the bitwise one. -/
theorem branchWordIsTestedBitwise : Obligations.BranchWordIsTestedBitwise := by
  intro w s hop
  have hbr : opcodeAt (field w 12 4) = .br := congrArg opcodeAt hop
  rw [decode_br hbr, exec_br]
  simp only [branchTaken_iff_bits, flagBits_eq_field]
  rfl

/-! ## A branch to itself -/

theorem decode_encode_br (n z p : Bool) (off : BitVec 9) : decode (encode (.br n z p off)) = .br n z p off := by
  have hop : opcodeAt (field (encode (.br n z p off)) 12 4) = .br :=
    (congrArg opcodeAt (Laws.EncodeOpcode.br n z p off)).trans (opcodeAt_opcodeBits .br)
  have hoff : field (encode (.br n z p off)) 0 9 = off :=
    field_eq fun i hi => by
      simp only [encode, BitVec.getLsbD_append]
      rw [if_pos (by omega), Nat.zero_add]
  rw [decode_br hop, hoff]
  simp only [bit, encode, BitVec.getLsbD_append]
  simp

/-- Offset -1 takes the incremented pc back to the branch itself. -/
theorem add_one_add_minus_one (a : Word) : a + 1#16 + (0x1FF#9).signExtend 16 = a := by
  have hminus : (0x1FF#9).signExtend 16 = -1#16 := by decide
  rw [hminus, BitVec.add_assoc, BitVec.add_right_neg, BitVec.add_zero]

/-- Settles O27: the fetch moves pc past the branch, and the branch moves it back. -/
theorem takenBranchToItselfChangesNothing : Obligations.TakenBranchToItselfChangesNothing := by
  intro s n z p hmay hpc hword htaken
  rw [step_elsewhere hmay hpc, hword, decode_encode_br, exec_br, State.setPc_cond, if_pos htaken, State.setPc_pc,
    add_one_add_minus_one]
  rfl

/-! ## Jump and call -/

/-- Settles O28: JMP is `setPc` alone. -/
theorem jmpGoesToBaseR : Obligations.JmpGoesToBaseR := exec_jmp

/-- Settles O29: the link and the target are taken from one pc. -/
theorem jsrLinksAndAddsTheOffset : Obligations.JsrLinksAndAddsTheOffset :=
  fun off s => ⟨_, exec_jsr off s, reg_link s, rfl⟩

/-- Settles O30: BaseR is read after the link, so for R7 it is the link itself. -/
theorem jsrrLinksBeforeReadingBaseR : Obligations.JsrrLinksBeforeReadingBaseR :=
  fun base s => ⟨_, exec_jsrr base s, reg_link s, rfl⟩

end Sys2Proof.Machine

/-! The settled statements of 42_loadstore.md: LD, LDI and LDR load through `MemRead` (R140 to R142), LEA forms an address
(R143), and ST, STI and STR store (R144 to R146). -/

namespace Sys2Proof.Machine

/-! ## What each load and store runs -/

theorem basePlus_eq_signExtend (base : Reg) (off : BitVec 6) (s : State) :
    basePlus base off s = s.reg base + off.signExtend 16 := by
  rw [basePlus, sext_eq_signExtend off (by decide)]

theorem exec_ld (dr : Reg) (off : BitVec 9) (s : State) :
    exec (.ld dr off) s = (memRead (s.pc + off.signExtend 16) s).into fun v u => .next (writeResult dr v u) := by
  rw [← pcRel_eq_signExtend off (by decide) s]
  rfl

theorem exec_ldi (dr : Reg) (off : BitVec 9) (s : State) :
    exec (.ldi dr off) s =
      ((memRead (s.pc + off.signExtend 16) s).andThen memRead).into fun v u => .next (writeResult dr v u) := by
  rw [← pcRel_eq_signExtend off (by decide) s]
  rfl

theorem exec_ldr (dr base : Reg) (off : BitVec 6) (s : State) :
    exec (.ldr dr base off) s =
      (memRead (s.reg base + off.signExtend 16) s).into fun v u => .next (writeResult dr v u) := by
  rw [← basePlus_eq_signExtend base off s]
  rfl

theorem exec_lea (dr : Reg) (off : BitVec 9) (s : State) :
    exec (.lea dr off) s = .next (writeResult dr (s.pc + off.signExtend 16) s) := by
  rw [← pcRel_eq_signExtend off (by decide) s]
  rfl

theorem exec_st (sr : Reg) (off : BitVec 9) (s : State) :
    exec (.st sr off) s = .next (s.setWord (s.pc + off.signExtend 16) (s.reg sr)) := by
  rw [← pcRel_eq_signExtend off (by decide) s]
  rfl

theorem exec_sti (sr : Reg) (off : BitVec 9) (s : State) :
    exec (.sti sr off) s = (memRead (s.pc + off.signExtend 16) s).into fun q u => .next (u.setWord q (u.reg sr)) := by
  rw [← pcRel_eq_signExtend off (by decide) s]
  rfl

theorem exec_str (sr base : Reg) (off : BitVec 6) (s : State) :
    exec (.str sr base off) s = .next (s.setWord (s.reg base + off.signExtend 16) (s.reg sr)) := by
  rw [← basePlus_eq_signExtend base off s]
  rfl

/-! ## What a read leaves, by the way it ended -/

theorem readFrame_of_memRead_done {a v : Word} {s s' : State} (h : memRead a s = .done v s') : ReadFrame s s' := by
  have hread := memRead_readFrame a s
  rwa [h, Attempt.post_done] at hread

/-- A failed poll sets the code, and keeps the registers, `cond` and memory (20_memory.md R55). -/
theorem kept_of_memRead_raised {a : Word} {s s' : State} (h : memRead a s = .raised s') :
    s'.regs = s.regs ∧ s'.cond = s.cond ∧ s'.mem = s.mem ∧ s'.fatal = some .kbdPollFail := by
  have hread := memRead_post a s
  rw [h, Attempt.post_raised] at hread
  obtain ⟨-, hs'⟩ := hread
  refine ⟨?_, ?_, ?_, ?_⟩ <;> rw [hs']

/-! ## How a load and a store complete -/

/-- A load whose reads complete in `s'` completes there. -/
theorem CompletesWith.of_read {i : Instr} {s s' : State} {dr : Reg} {v : Word} {r : Attempt Word}
    (h : exec i s = r.into fun v u => .next (writeResult dr v u)) (hr : r = .done v s') : CompletesWith i s s' dr v :=
  .of_writeResult (by rw [h, hr, Attempt.into_done])

/-- A load whose first read raises ends there, with DR and `cond` as they were. -/
theorem load_of_memRead_raised {i : Instr} {s s' : State} {a : Word} {k : Word → State → Result}
    (h : exec i s = (memRead a s).into k) (hr : memRead a s = .raised s') :
    exec i s = .next s' ∧ s'.regs = s.regs ∧ s'.cond = s.cond ∧ s'.fatal = some .kbdPollFail := by
  obtain ⟨hregs, hcond, -, hfatal⟩ := kept_of_memRead_raised hr
  exact ⟨by rw [h, hr, Attempt.into_raised], hregs, hcond, hfatal⟩

/-- What a load with one read does, by the way the read goes: plain away from KBSR_ADDR, completed, or raised. -/
theorem load_of_one_read {i : Instr} {s : State} {dr : Reg} {a : Word}
    (h : exec i s = (memRead a s).into fun v u => .next (writeResult dr v u)) :
    (a ≠ config.kbsrAddr → CompletesWith i s s dr (s.word a)) ∧
    (∀ v s', memRead a s = .done v s' → CompletesWith i s s' dr v) ∧
    (∀ s', memRead a s = .raised s' →
      exec i s = .next s' ∧ s'.regs = s.regs ∧ s'.cond = s.cond ∧ s'.fatal = some .kbdPollFail) :=
  ⟨fun ha => .of_read h (memRead_elsewhere ha s), fun _ _ hr => .of_read h hr, fun _ hr => load_of_memRead_raised h hr⟩

/-- An instruction that ends by storing in `s'` completes so: `setWord` changes the one word. -/
theorem CompletesStoring.of_setWord {i : Instr} {s s' : State} {a v : Word} (h : exec i s = .next (s'.setWord a v)) :
    CompletesStoring i s s' a v :=
  ⟨s'.setWord a v, h, fun b => State.word_setWord s' a b v, rfl⟩

/-! ## Loads and LEA -/

/-- Settles O18: LD is one read and then its result. -/
theorem ldLoadsAndSetsCond : Obligations.LdLoadsAndSetsCond :=
  fun dr off s => load_of_one_read (exec_ld dr off s)

/-- Settles O19: the first read to raise ends LDI, and the second starts from what the first left. -/
theorem ldiLoadsThroughThePointer : Obligations.LdiLoadsThroughThePointer := by
  intro dr off s
  have hexec := exec_ldi dr off s
  refine ⟨fun hp hq => ?_, fun q v s' s'' hfirst hsecond => ?_, fun s' hfirst => ?_, fun q s' s'' hfirst hsecond => ?_⟩
  · exact .of_read hexec (by rw [memRead_elsewhere hp, Attempt.andThen_done, memRead_elsewhere hq])
  · exact .of_read hexec (by rw [hfirst, Attempt.andThen_done, hsecond])
  · rw [Attempt.into_andThen] at hexec
    exact load_of_memRead_raised hexec hfirst
  · have hkept := readFrame_of_memRead_done hfirst
    obtain ⟨hregs, hcond, hmem, hfatal⟩ := kept_of_memRead_raised hsecond
    rw [hfirst, Attempt.andThen_done, hsecond, Attempt.into_raised] at hexec
    exact ⟨hexec, hregs.trans hkept.regs, hcond.trans hkept.cond, hmem, hfatal⟩

/-- Settles O20: LDR is one read too, at an address formed before DR is written. -/
theorem ldrLoadsFromBasePlusOffset : Obligations.LdrLoadsFromBasePlusOffset :=
  fun dr base off s => load_of_one_read (exec_ldr dr base off s)

/-- Settles O21: LEA writes its address as a result, in the state it started from. -/
theorem leaWritesTheAddressAndSetsCond : Obligations.LeaWritesTheAddressAndSetsCond :=
  fun dr off s => .of_writeResult (exec_lea dr off s)

/-! ## Stores -/

/-- Settles O22: both stores are one `setWord`. -/
theorem stAndStrStoreAtTheirAddress : Obligations.StAndStrStoreAtTheirAddress :=
  fun sr base off9 off6 s => ⟨.of_setWord (exec_st sr off9 s), .of_setWord (exec_str sr base off6 s)⟩

/-- STI stores SR where the pointer read points; the read has left SR as it was. -/
theorem exec_sti_of_done {sr : Reg} {off : BitVec 9} {s s' : State} {q : Word}
    (h : memRead (s.pc + off.signExtend 16) s = .done q s') : exec (.sti sr off) s = .next (s'.setWord q (s.reg sr)) := by
  rw [exec_sti, h, Attempt.into_done, (readFrame_of_memRead_done h).reg]

/-- Settles O23: STI reads its pointer and then stores; a read that raises is the end, with memory as it was. -/
theorem stiStoresThroughThePointer : Obligations.StiStoresThroughThePointer := by
  intro sr off s
  refine ⟨fun ha => .of_setWord (exec_sti_of_done (memRead_elsewhere ha s)),
    fun q s' hr => .of_setWord (exec_sti_of_done hr), fun s' hr => ?_⟩
  obtain ⟨-, -, hmem, hfatal⟩ := kept_of_memRead_raised hr
  exact ⟨by rw [exec_sti, hr, Attempt.into_raised], hmem, hfatal⟩

end Sys2Proof.Machine

/-! The settled statements of 43_trap.md: the dispatch of a TRAP word (R170, R171, R178 to R180) and what each routine
writes and reads (R172 to R177). A routine's writes and the flush after them are said once, as `WritesThenFlushes`. -/

namespace Sys2Proof.Machine

/-! ## Dispatch -/

theorem decode_of_trap_opcode {w : Word} (h : w.extractLsb' 12 4 = 0xF#4) :
    decode w = trapInstr (w.extractLsb' 0 8) :=
  decode_trap (by rw [field, h]; rfl)

theorem exec_trap (v : BitVec 8) (s : State) : exec (.trap v) s = (trapRoutine v s).finish := rfl

/-- A vector outside the table selects no routine (R178, decision D7). -/
theorem exec_trap_unlisted {v : BitVec 8} (hv : v.toNat < 0x20 ∨ 0x25 < v.toNat) (s : State) :
    exec (.trap v) s = .next s := by
  rw [exec_trap]
  unfold trapRoutine
  split
  case h_7 => rfl
  all_goals omega

/-- A routine's own constructor does what a plain TRAP with its vector does. -/
theorem exec_trapInstr (v : BitVec 8) (s : State) : exec (trapInstr v) s = exec (.trap v) s := by
  unfold trapInstr
  split
  case h_7 => rfl
  all_goals
    next hv =>
    rw [exec_trap, trapRoutine, hv]
    rfl

/-- Settles O32: the decoder's table and the dispatcher's agree, and the dispatcher's frame is `trapRoutine_frame`. -/
theorem trapVectorSelectsTheRoutine : Obligations.TrapVectorSelectsTheRoutine := by
  intro w s h
  rw [decode_of_trap_opcode h]
  generalize w.extractLsb' 0 8 = v
  refine ⟨?_, (exec_trapInstr v s).symm, fun t ht => ?_⟩
  · rw [exec_trapInstr]
    split
    case h_7 =>
      refine exec_trap_unlisted ?_ s
      simp only [imp_false] at *
      omega
    all_goals
      next hv =>
      rw [exec_trap, trapRoutine, hv]
      rfl
  · rw [exec_trapInstr] at ht
    have frame := (trapRoutine_frame v s).finish ht
    refine ⟨frame.pc, frame.cond, frame.mem, fun r hr => ?_⟩
    by_cases hr0 : r = .R0
    · obtain ⟨hgetc, hin⟩ := hr hr0
      exact congrArg (RegFile.get · r) ((trapRoutine_regs hgetc hin s).finish ht)
    · exact frame.regs r hr0

/-- Settles O31: no routine is selected, and RTI and RESERVED run none. -/
theorem unlistedTrapsRtiAndReservedDoNothing : Obligations.UnlistedTrapsRtiAndReservedDoNothing :=
  fun _ s => ⟨fun hv => exec_trap_unlisted hv s, rfl, rfl⟩

/-! ## Characters -/

theorem loByte_eq_setWidth (w : Word) : loByte w = w.setWidth 8 := BitVec.setWidth_eq_extractLsb' (by decide) |>.symm

theorem flatMap_putsChars (ws : List Word) : ws.flatMap putsChars = ws.map fun w => w.setWidth 8 := by
  show (ws.flatMap fun w => [loByte w]) = _
  simp only [loByte_eq_setWidth]
  exact List.flatMap_pure_eq_map _ ws

theorem flatMap_putspChars (ws : List Word) :
    ws.flatMap putspChars = ws.flatMap fun w =>
      if w.extractLsb' 8 8 = 0x00#8 then [w.setWidth 8] else [w.setWidth 8, w.extractLsb' 8 8] := by
  simp only [← loByte_eq_setWidth]
  rfl

/-! ## Writing characters and then flushing -/

/-- A flush that is not yet due to fail brings the failure one nearer. -/
theorem flush_nearer {s : State} {n : Nat} {rest : List Nat} (h : s.outputFails = (n + 1) :: rest) :
    flush s = .done () { s with outputFails := n :: rest } := by
  unfold flush consAck
  rw [h]

/-- From `s`, `r` writes the characters `l` one by one and goes no further, by the place of the first failing answer. -/
structure Writes (s : State) (l : List Byte) (r : Attempt Unit) : Prop where
  ok : s.outputFails = [] → r = .done () { s with out := s.out ++ l }
  later {g : Nat} {rest : List Nat} : s.outputFails = g :: rest → l.length ≤ g →
    r = .done () { s with out := s.out ++ l, outputFails := (g - l.length) :: rest }
  fails {g : Nat} {rest : List Nat} : s.outputFails = g :: rest → g < l.length →
    r = .raised { s with out := s.out ++ l.take (g + 1), outputFails := rest, fatal := some .consWriteFail }

/-- From `s`, `r` writes the characters `l` one by one and then flushes, by the place of the first failing answer: the
flush is answer number `l.length`. -/
structure WritesThenFlushes (s : State) (l : List Byte) (r : Attempt Unit) : Prop where
  ok : s.outputFails = [] → r = .done () { s with out := s.out ++ l }
  later {g : Nat} {rest : List Nat} : s.outputFails = g :: rest → l.length < g →
    r = .done () { s with out := s.out ++ l, outputFails := (g - l.length - 1) :: rest }
  fails {g : Nat} {rest : List Nat} : s.outputFails = g :: rest → g ≤ l.length →
    r = .raised { s with out := s.out ++ l.take (g + 1), outputFails := rest, fatal := some .consWriteFail }

theorem Writes.flush {s : State} {l : List Byte} {r : Attempt Unit} (h : Writes s l r) :
    WritesThenFlushes s l (r.andThen fun _ t => Machine.flush t) where
  ok ho := by
    rw [h.ok ho, Attempt.andThen_done]
    exact flush_ok ho
  later {g rest} ho hg := by
    obtain ⟨n, hn⟩ : ∃ n, g - l.length = n + 1 := ⟨g - l.length - 1, by omega⟩
    rw [h.later ho hg.le, Attempt.andThen_done, hn]
    exact flush_nearer rfl
  fails {g rest} ho hg := by
    rcases hg.lt_or_eq with hlt | rfl
    · rw [h.fails ho hlt, Attempt.andThen_raised]
    · rw [h.later ho le_rfl, Attempt.andThen_done, Nat.sub_self, flush_fail rfl, List.take_of_length_le (by omega)]

theorem putAll_writes (l : List Byte) (s : State) : Writes s l (putAll l s) where
  ok := putAll_ok l
  later ho := (putAll_fails l ho).2
  fails ho := (putAll_fails l ho).1

theorem putc_writes (b : Byte) (s : State) : Writes s [b] (putc b s) := by
  have h : putAll [b] s = putc b s := by
    rw [putAll]
    cases putc b s <;> rfl
  exact h ▸ putAll_writes [b] s

/-- The loop of PUTS and PUTSP writes what `chars` makes of the string's words (R174, R176). -/
theorem putString_writes (chars : Word → List Byte) {s : State} {a : Word} {ws : List Word} (hs : StringAt s a ws) :
    Writes s (ws.flatMap chars) (putString chars (stringFuel s) a s) where
  ok ho := putString_ok chars hs ho hs.length_lt_fuel
  later ho := (putString_fails chars ho hs hs.length_lt_fuel).2
  fails ho := (putString_fails chars ho hs hs.length_lt_fuel).1

/-! ## OUT, PUTS, PUTSP and HALT -/

theorem exec_out (s : State) : exec .out s = (outRoutine s).finish := rfl

theorem exec_puts (s : State) : exec .puts s = (putsRoutine s).finish := rfl

theorem exec_putsp (s : State) : exec .putsp s = (putspRoutine s).finish := rfl

theorem outRoutine_writes (s : State) : WritesThenFlushes s [(s.reg .R0).setWidth 8] (outRoutine s) :=
  loByte_eq_setWidth (s.reg .R0) ▸ (putc_writes _ s).flush

/-- Settles O34: OUT writes one character and flushes, so its flush is answer number 1. -/
theorem outWritesTheLowByteOfR0 : Obligations.OutWritesTheLowByteOfR0 := by
  intro s n rest
  have h := outRoutine_writes s
  rw [exec_out]
  refine ⟨fun ho => ?_, fun ho => ?_, fun ho => ?_, fun ho => ?_⟩
  · rw [h.ok ho]; rfl
  · rw [h.later ho (by simp)]; rfl
  · rw [h.fails ho (by simp)]; rfl
  · rw [h.fails ho (by simp)]; rfl

/-- Settles O35: PUTS is the string loop on low bytes, and its flush. -/
theorem putsWritesTheLowBytesOfTheString : Obligations.PutsWritesTheLowBytesOfTheString := by
  intro s ws g rest hs
  have h : WritesThenFlushes s (ws.map fun w => w.setWidth 8) (putsRoutine s) :=
    flatMap_putsChars ws ▸ (putString_writes putsChars hs).flush
  rw [exec_puts]
  refine ⟨fun ho => ?_, fun ho hg => ?_, fun ho hg => ?_⟩
  · rw [h.ok ho]; rfl
  · rw [h.later ho (by simpa using hg), List.length_map]; rfl
  · rw [h.fails ho (by simpa using hg)]; rfl

/-- Settles O36: PUTSP is the string loop on low bytes and nonzero high bytes, and its flush. -/
theorem putspWritesThePackedString : Obligations.PutspWritesThePackedString := by
  intro s ws l g rest hs hl
  have h : WritesThenFlushes s l (putspRoutine s) :=
    (flatMap_putspChars ws).trans hl.symm ▸ (putString_writes putspChars hs).flush
  rw [exec_putsp]
  refine ⟨fun ho => ?_, fun ho hg => ?_, fun ho hg => ?_⟩
  · rw [h.ok ho]; rfl
  · rw [h.later ho hg]; rfl
  · rw [h.fails ho hg]; rfl

/-- Settles O40: HALT is a flush, and clears Running only after it. -/
theorem haltClearsRunning : Obligations.HaltClearsRunning := by
  intro s n rest
  have hexec : exec .halt s = (flush s).into fun _ t => .next t.stopRunning := Attempt.into_andThen _ _ _
  rw [hexec]
  refine ⟨fun ho => ?_, fun ho => ?_, fun ho => ?_⟩
  · rw [flush_ok ho]; rfl
  · rw [flush_nearer ho]; rfl
  · rw [flush_fail ho]; rfl

/-! ## Strings without an end -/

theorem flush_not_stuck (s : State) (f : Fault) : flush s ≠ .stuck f := by
  unfold flush raiseFatal
  split <;> simp

/-- A string routine faults exactly when its loop runs out of rounds: its flush always answers. -/
theorem finish_flush_eq_fault_iff {r : Attempt Unit} {f : Fault} :
    (r.andThen fun _ t => flush t).finish = .fault f ↔ r = .stuck f := by
  rcases r with ⟨_, t⟩ | t | f'
  · rw [Attempt.andThen_done]
    have hflush := flush_not_stuck t
    rcases hf : flush t with ⟨_, u⟩ | u | f'
    · simp [Attempt.finish]
    · simp [Attempt.finish]
    · exact absurd hf (hflush f')
  · simp [Attempt.finish]
  · simp [Attempt.finish]

/-- The string loop and its flush hang exactly when no word is zero and no write is to fail. -/
theorem putString_flush_faults_iff {chars : Word → List Byte} (hc : ∀ c, chars c ≠ []) (a : Word) (s : State) :
    (∃ f, ((putString chars (stringFuel s) a s).andThen fun _ t => flush t).finish = .fault f) ↔
      (∀ b, s.word b ≠ 0x0000#16) ∧ s.outputFails = [] := by
  simp only [finish_flush_eq_fault_iff]
  exact ⟨fun ⟨_, hf⟩ => putString_fuel_enough chars hc hf,
    fun ⟨hz, ho⟩ => ⟨_, putString_no_zero chars _ a hz ho⟩⟩

/-- Settles O37: both routines are the loop and a flush, and each makes at least one character of every word. -/
theorem stringTrapsHangOnlyWithoutAZeroWord : Obligations.StringTrapsHangOnlyWithoutAZeroWord :=
  fun s => ⟨putString_flush_faults_iff putsChars_ne_nil _ s, putString_flush_faults_iff putspChars_ne_nil _ s⟩

/-! ## GETC and IN -/

theorem exec_getc (s : State) : exec .getc s = (readChar s).into fun b t => .next (t.setReg .R0 (b.setWidth 16)) := by
  simp only [← zextChar_eq_setWidth]
  exact Attempt.into_andThen _ _ _

/-- Settles O33: GETC is one blocking read, and R0 is written only if it answers a character. -/
theorem getcReadsOneCharacter : Obligations.GetcReadsOneCharacter := by
  intro s rest
  rw [exec_getc]
  refine ⟨fun b hg => ?_, fun hg => ?_, fun hg => ?_⟩
  · rw [readChar_char hg]
    exact ⟨_, rfl, fun r => State.reg_setReg _ .R0 r _, rfl⟩
  · rw [readChar_fail hg]; rfl
  · rw [readChar_never hg]; rfl

/-- IN up to its read: the prompt and its flush (R175, decision D13). -/
def inPromptPart (s : State) : Attempt Unit := (putAll config.inPrompt s).andThen fun _ t => flush t

/-- IN's echo of the character read, with its flush (R175). -/
def inEchoPart (c : Byte) (s : State) : Attempt Unit := (putc c s).andThen fun _ t => flush t

theorem inPromptPart_writes (s : State) : WritesThenFlushes s config.inPrompt (inPromptPart s) :=
  (putAll_writes _ s).flush

theorem inEchoPart_writes (c : Byte) (s : State) : WritesThenFlushes s [c] (inEchoPart c s) := (putc_writes c s).flush

/-- IN is its prompt, its read, its echo, and then R0. -/
theorem exec_inp (s : State) :
    exec .inp s = (inPromptPart s).into fun _ t => (readChar t).into fun c u =>
      (inEchoPart c u).into fun _ v => .next (v.setReg .R0 (c.setWidth 16)) := by
  show (inRoutine s).into _ = _
  unfold inRoutine inPromptPart inEchoPart
  simp only [Attempt.into_andThen, Attempt.into_done, zextChar_eq_setWidth]

/-- Once the prompt is out and a character is read, IN is its echo and then R0. -/
theorem exec_inp_of_char {s t : State} {c : Byte} {rest : List GetcAnswer} (hp : inPromptPart s = .done () t)
    (hg : t.getcs = .char c :: rest) :
    exec .inp s =
      (inEchoPart c { t with getcs := rest }).into fun _ v => .next (v.setReg .R0 (c.setWidth 16)) := by
  rw [exec_inp, hp, Attempt.into_done, readChar_char hg, Attempt.into_done]

/-- Settles O38: with no write to fail, the prompt and the echo go through, and the read decides. -/
theorem inPromptsReadsAndEchoes : Obligations.InPromptsReadsAndEchoes := by
  intro s rest ho
  have hp := (inPromptPart_writes s).ok ho
  refine ⟨fun c hg => ?_, fun hg => ?_, fun hg => ?_⟩
  · have hecho := (inEchoPart_writes c { s with getcs := rest, out := s.out ++ config.inPrompt }).ok ho
    rw [exec_inp_of_char hp hg, hecho]
    exact ⟨_, rfl, fun r => State.reg_setReg _ .R0 r _, rfl⟩
  · have hread := readChar_fail (s := { s with out := s.out ++ config.inPrompt }) hg
    rw [exec_inp, hp, Attempt.into_done, hread]
    rfl
  · have hread := readChar_never (s := { s with out := s.out ++ config.inPrompt }) hg
    rw [exec_inp, hp, Attempt.into_done, hread]
    rfl

/-- Settles O39: the prompt and its flush take answers 0 to L, the echo and its flush the two after them. -/
theorem inRaisesAtTheFirstFailingWrite : Obligations.InRaisesAtTheFirstFailingWrite := by
  intro s c g rest fails hg ho
  have hexec (hlt : config.inPrompt.length < g) := exec_inp_of_char ((inPromptPart_writes s).later ho hlt) hg
  refine ⟨fun hle => ?_, fun he => ?_, fun he => ?_, fun hge => ?_⟩
  · rw [exec_inp, (inPromptPart_writes s).fails ho hle]
    rfl
  · rw [hexec (by omega), (inEchoPart_writes c _).fails rfl (by simp; omega)]
    simp [he]
  · rw [hexec (by omega), (inEchoPart_writes c _).fails rfl (by simp; omega)]
    simp [he]
  · rw [hexec (by omega), (inEchoPart_writes c _).later rfl (by simp; omega)]
    exact ⟨_, rfl, State.reg_setReg _ .R0 .R0 _⟩

end Sys2Proof.Machine

/-! The settled statements of 60_exceptions.md: the fatal codes and what raises them (R201), the invariant of every step,
and the coming polls, which only a `MemRead` looks at (R202). -/

namespace Sys2Proof.Machine

/-! ## Which codes an operation raises -/

/-- Between `s` and `t` no fatal code was raised but those that `p` allows. -/
def RaisesOnly (p : FatalCode → Bool) (s t : State) : Prop := ∀ c, t.fatal = some c → s.fatal = some c ∨ p c = true

section RaisesOnly

variable {p : FatalCode → Bool} {s t : State}

theorem RaisesOnly.of_fatal_eq (h : t.fatal = s.fatal) : RaisesOnly p s t := fun _ hc => .inl (h ▸ hc)

theorem RaisesOnly.of_code {d : FatalCode} (hp : p d = true) (h : t.fatal = some d) : RaisesOnly p s t := fun c hc => by
  cases h.symm.trans hc
  exact .inr hp

theorem RaisesOnly.trans {u : State} (h : RaisesOnly p s t) (k : RaisesOnly p t u) : RaisesOnly p s u :=
  fun c hc => (k c hc).elim (h c) .inr

/-- Operations that each raise only what `p` allows do so in sequence. -/
theorem RaisesOnly.seq {α β : Type} {r : Attempt α} {k : α → State → Attempt β}
    (h : r.Post (fun _ t => RaisesOnly p s t) (RaisesOnly p s))
    (hk : ∀ a t, (k a t).Post (fun _ u => RaisesOnly p t u) (RaisesOnly p t)) :
    (r.andThen k).Post (fun _ t => RaisesOnly p s t) (RaisesOnly p s) :=
  h.andThen fun a t ht => (hk a t).mono (fun _ _ hu => ht.trans hu) fun _ hu => ht.trans hu

/-- What only writes to the console raises at most CONS_WRITE_FAIL. -/
theorem OutputFrame.post_raisesOnly {α : Type} {r : Attempt α} (hp : p .consWriteFail = true)
    (h : r.Post (fun _ t => OutputFrame s t) (OutputFrame s)) :
    r.Post (fun _ t => RaisesOnly p s t) (RaisesOnly p s) :=
  have weaken (t : State) (ht : OutputFrame s t) : RaisesOnly p s t := ht.outCode.elim .of_fatal_eq (.of_code hp)
  h.mono (fun _ => weaken) weaken

theorem memRead_raisesOnly (hp : p .kbdPollFail = true) (a : Word) (s : State) :
    (memRead a s).Post (fun _ t => RaisesOnly p s t) (RaisesOnly p s) := by
  refine (memRead_post a s).mono (fun _ t ⟨_, ht, _⟩ => .of_fatal_eq ?_) fun t ⟨_, ht⟩ => .of_code hp ?_ <;> rw [ht]

theorem readChar_raisesOnly (hp : p .consReadFail = true) (s : State) :
    (readChar s).Post (fun _ t => RaisesOnly p s t) (RaisesOnly p s) := by
  refine (readChar_post s).mono (fun _ t ht => .of_fatal_eq ?_) fun t ht => .of_code hp ?_ <;> rw [ht]

theorem getcRoutine_raisesOnly (hread : p .consReadFail = true) (s : State) :
    (getcRoutine s).Post (fun _ t => RaisesOnly p s t) (RaisesOnly p s) :=
  RaisesOnly.seq (readChar_raisesOnly hread s) fun _ _ => .of_fatal_eq rfl

theorem inRoutine_raisesOnly (hread : p .consReadFail = true) (hwrite : p .consWriteFail = true) (s : State) :
    (inRoutine s).Post (fun _ t => RaisesOnly p s t) (RaisesOnly p s) :=
  RaisesOnly.seq (OutputFrame.post_raisesOnly hwrite (putAll_frame _ s)) fun _ t =>
  RaisesOnly.seq (OutputFrame.post_raisesOnly hwrite (flush_frame t)) fun _ t =>
  RaisesOnly.seq (readChar_raisesOnly hread t) fun _ t =>
  RaisesOnly.seq (OutputFrame.post_raisesOnly hwrite (putc_frame _ t)) fun _ t =>
  RaisesOnly.seq (OutputFrame.post_raisesOnly hwrite (flush_frame t)) fun _ _ => .of_fatal_eq rfl

theorem haltRoutine_raisesOnly (hwrite : p .consWriteFail = true) (s : State) :
    (haltRoutine s).Post (fun _ t => RaisesOnly p s t) (RaisesOnly p s) :=
  RaisesOnly.seq (OutputFrame.post_raisesOnly hwrite (flush_frame s)) fun _ _ => .of_fatal_eq rfl

/-- A TRAP raises what its vector's row of R201 names. -/
theorem trapRoutine_raisesOnly (v : BitVec 8) (s : State) :
    (trapRoutine v s).Post (fun _ t => RaisesOnly (mayRaise (.trap v)) s t) (RaisesOnly (mayRaise (.trap v)) s) := by
  unfold trapRoutine
  split
  case h_1 hv =>
    obtain rfl : v = 0x20#8 := BitVec.eq_of_toNat_eq hv
    exact getcRoutine_raisesOnly rfl s
  case h_2 hv =>
    obtain rfl : v = 0x21#8 := BitVec.eq_of_toNat_eq hv
    exact OutputFrame.post_raisesOnly rfl (outRoutine_frame s)
  case h_3 hv =>
    obtain rfl : v = 0x22#8 := BitVec.eq_of_toNat_eq hv
    exact OutputFrame.post_raisesOnly rfl (putsRoutine_frame s)
  case h_4 hv =>
    obtain rfl : v = 0x23#8 := BitVec.eq_of_toNat_eq hv
    exact inRoutine_raisesOnly rfl rfl s
  case h_5 hv =>
    obtain rfl : v = 0x24#8 := BitVec.eq_of_toNat_eq hv
    exact OutputFrame.post_raisesOnly rfl (putspRoutine_frame s)
  case h_6 hv =>
    obtain rfl : v = 0x25#8 := BitVec.eq_of_toNat_eq hv
    exact haltRoutine_raisesOnly rfl s
  case h_7 => exact .of_fatal_eq rfl

end RaisesOnly

/-- An instruction raises only the codes its row of R201 names. -/
theorem exec_raisesOnly (i : Instr) {s t : State} (h : exec i s = .next t) : RaisesOnly (mayRaise i) s t := by
  cases i with
  | addReg | addImm | andReg | andImm | not | lea | st | str | jmp | jsr | jsrr | rti | reserved =>
    cases h
    exact .of_fatal_eq rfl
  | br =>
    cases h
    split <;> exact .of_fatal_eq rfl
  | ld | ldr | sti => exact (memRead_raisesOnly rfl _ s).into (fun _ _ _ hu h => by cases h; exact hu) h
  | ldi dr off =>
    have hreads := RaisesOnly.seq (p := mayRaise (.ldi dr off)) (memRead_raisesOnly rfl (pcRel off s) s)
      fun q u => memRead_raisesOnly rfl q u
    exact hreads.into (fun _ _ _ hu h => by cases h; exact hu) h
  | trap v => exact (trapRoutine_raisesOnly v s).finish h
  | getc => exact (getcRoutine_raisesOnly rfl s).finish h
  | out => exact (OutputFrame.post_raisesOnly rfl (outRoutine_frame s)).finish h
  | puts => exact (OutputFrame.post_raisesOnly rfl (putsRoutine_frame s)).finish h
  | inp => exact (inRoutine_raisesOnly rfl rfl s).finish h
  | putsp => exact (OutputFrame.post_raisesOnly rfl (putspRoutine_frame s)).finish h
  | halt => exact (haltRoutine_raisesOnly rfl s).finish h

/-- A fetch raises KBD_POLL_FAIL alone, and only where its read polls (20_memory.md R58). -/
theorem fetch_raised {s t : State} (h : fetch s = .raised t) : t.fatal = some .kbdPollFail ∧ s.pc = config.kbsrAddr := by
  have hf := fetch_readFrame s
  rw [h, Attempt.post_raised] at hf
  refine ⟨hf.2, Decidable.byContradiction fun hpc => ?_⟩
  rw [fetch_elsewhere hpc] at h
  cases h

/-- Settles O48: what an instruction raises is `exec_raisesOnly`, and the fetch is one read. -/
theorem fatalCodesAreRaisedOnlyAsListed : Obligations.FatalCodesAreRaisedOnlyAsListed := by
  refine ⟨rfl, fun i s t c h hnone hcode => ?_, fun _ _ => fetch_raised⟩
  have hraised := exec_raisesOnly i h c hcode
  rw [hnone] at hraised
  exact hraised.resolve_left nofun

/-! ## The invariant -/

/-- What the fetch establishes and every instruction keeps holds after the step. -/
theorem step_keeps {E : State → Prop} {s t : State} (hfetch : (fetch s).Post (fun _ => E) E)
    (hexec : ∀ i u t, E u → exec i u = .next t → E t) (h : step s = .next t) : E t := by
  obtain ⟨hrst, hfatal, hrun⟩ := mayStep_of_next h
  rw [step_mayStep hrst hfatal hrun] at h
  exact hfetch.into (fun w u t => hexec (decode w) u t) h

/-- A read writes memory by the refresh alone, so it keeps the canonical form. -/
theorem memRead_wf {s : State} (hs : s.mem.wf) (a : Word) : (memRead a s).Post (fun _ t => t.mem.wf) (fun t => t.mem.wf) :=
  (memRead_post a s).mono (fun _ _ ⟨_, _, hw, _⟩ => hw hs) fun t ⟨_, ht⟩ => by rw [ht]; exact hs

theorem fetch_wf {s : State} (hs : s.mem.wf) : (fetch s).Post (fun _ t => t.mem.wf) (fun t => t.mem.wf) :=
  (fetch_post s).mono (fun _ _ ⟨_, hw, _⟩ => hw hs) fun t ht => by rw [ht]; exact hs

/-- Every instruction keeps the memory canonical: it writes by stores and refreshes (20_memory.md R51), or not at all. -/
theorem exec_wf (i : Instr) {s t : State} (hs : s.mem.wf) (h : exec i s = .next t) : t.mem.wf := by
  cases i with
  | st | str =>
    cases h
    exact State.wf_setWord hs _ _
  | ld | ldr => exact (memRead_wf hs _).into (fun _ _ _ hu h => by cases h; exact hu) h
  | ldi dr off =>
    have hreads := (memRead_wf hs (pcRel off s)).andThen fun q _ hu => memRead_wf hu q
    exact hreads.into (fun _ _ _ hu h => by cases h; exact hu) h
  | sti => exact (memRead_wf hs _).into (fun _ _ _ hu h => by cases h; exact State.wf_setWord hu _ _) h
  | _ => exact exec_mem_eq rfl rfl h ▸ hs

/-- No step ends with LOAD_FAIL, which only the host's load raises: it began with no code (R80). -/
theorem fatal_ne_loadFail_of_step {s t : State} (h : step s = .next t) : t.fatal ≠ some .loadFail := by
  obtain ⟨_, hnone, _⟩ := mayStep_of_next h
  refine step_keeps (E := fun u => u.fatal ≠ some .loadFail) ?_ (fun i u t hu h hcode => ?_) h
  · refine (fetch_post s).mono (fun _ _ ⟨ht, _⟩ => ?_) fun _ ht => ?_ <;> rw [ht]
    · simp [hnone]
    · simp
  · exact (exec_raisesOnly i h _ hcode).elim hu nofun

/-- Settles O50: the fetch and the instruction keep the canonical form, and a step never raises LOAD_FAIL. -/
theorem everyStepKeepsTheInvariant : Obligations.EveryStepKeepsTheInvariant := by
  intro s t ⟨hwf, _⟩ h
  exact ⟨step_keeps (fetch_wf hwf) (fun i _ _ => exec_wf i) h, fun hcode => absurd hcode (fatal_ne_loadFail_of_step h)⟩

/-! ## Operations that do not look at the coming polls -/

/-- The same state with `keys` as what the coming polls answer. -/
def State.withPolls (s : State) (keys : List PollAnswer) : State := { s with polls := keys }

@[simp] theorem State.withPolls_getcs (s : State) (keys : List PollAnswer) : (s.withPolls keys).getcs = s.getcs := rfl

@[simp] theorem State.withPolls_outputFails (s : State) (keys : List PollAnswer) :
    (s.withPolls keys).outputFails = s.outputFails := rfl

@[simp] theorem State.word_withPolls (s : State) (keys : List PollAnswer) (a : Word) :
    (s.withPolls keys).word a = s.word a := rfl

@[simp] theorem State.pushOut_withPolls (s : State) (keys : List PollAnswer) (b : Byte) :
    (s.withPolls keys).pushOut b = (s.pushOut b).withPolls keys := rfl

/-- The same outcome with `keys` as what the coming polls answer. -/
def Attempt.withPolls {α : Type} (keys : List PollAnswer) : Attempt α → Attempt α
  | .done a s => .done a (s.withPolls keys)
  | .raised s => .raised (s.withPolls keys)
  | .stuck f => .stuck f

/-- Whatever the coming polls would answer, the operation does the same and keeps those answers. -/
def IgnoresPolls {α : Type} (op : State → Attempt α) : Prop := ∀ s keys, op (s.withPolls keys) = (op s).withPolls keys

section IgnoresPolls

variable {α β : Type}

theorem ignoresPolls_done (a : α) {f : State → State} (hf : ∀ s keys, f (s.withPolls keys) = (f s).withPolls keys) :
    IgnoresPolls fun s => .done a (f s) :=
  fun s keys => congrArg (Attempt.done a) (hf s keys)

theorem IgnoresPolls.andThen {op : State → Attempt α} {k : α → State → Attempt β} (h : IgnoresPolls op)
    (hk : ∀ a, IgnoresPolls (k a)) : IgnoresPolls fun s => (op s).andThen k := by
  intro s keys
  simp only [h s keys]
  rcases op s with ⟨a, t⟩ | t | f
  · exact hk a t keys
  · rfl
  · rfl

/-- An instruction made of such an operation runs the same. -/
theorem IgnoresPolls.finish {op : State → Attempt Unit} (h : IgnoresPolls op) {s t : State} (keys : List PollAnswer)
    (ht : (op s).finish = .next t) : (op (s.withPolls keys)).finish = .next (t.withPolls keys) := by
  rw [h s keys]
  generalize op s = r at ht
  cases r <;> cases ht <;> rfl

theorem consAck_withPolls (s : State) (keys : List PollAnswer) :
    consAck (s.withPolls keys) = ((consAck s).1, (consAck s).2.withPolls keys) := by
  simp only [consAck, State.withPolls_outputFails]
  rcases s.outputFails with _ | ⟨_ | n, rest⟩ <;> rfl

theorem consGetc_withPolls (s : State) (keys : List PollAnswer) :
    consGetc (s.withPolls keys) = ((consGetc s).1, (consGetc s).2.withPolls keys) := by
  simp only [consGetc, State.withPolls_getcs]
  rcases s.getcs with _ | ⟨a, rest⟩ <;> rfl

theorem putc_ignoresPolls (b : Byte) : IgnoresPolls (putc b) := by
  intro s keys
  unfold putc
  rw [State.pushOut_withPolls, consAck_withPolls]
  rcases consAck (s.pushOut (charOf b)) with ⟨_ | _, t⟩ <;> rfl

theorem flush_ignoresPolls : IgnoresPolls flush := by
  intro s keys
  unfold flush
  rw [consAck_withPolls]
  rcases consAck s with ⟨_ | _, t⟩ <;> rfl

theorem readChar_ignoresPolls : IgnoresPolls readChar := by
  intro s keys
  unfold readChar
  rw [consGetc_withPolls]
  rcases consGetc s with ⟨_ | _ | _, t⟩ <;> rfl

theorem putAll_ignoresPolls (l : List Byte) : IgnoresPolls (putAll l) := by
  induction l with
  | nil => exact ignoresPolls_done () fun _ _ => rfl
  | cons b l ih => exact (putc_ignoresPolls b).andThen fun _ => ih

/-- The string loop, with its rounds fixed: its reads are plain (decision D11). -/
theorem putString_ignoresPolls (chars : Word → List Byte) (fuel : Nat) (a : Word) :
    IgnoresPolls (putString chars fuel a) := by
  induction fuel generalizing a with
  | zero => exact fun _ _ => rfl
  | succ fuel ih =>
    intro s keys
    simp only [putString, strRead_eq, Attempt.andThen_done, State.word_withPolls]
    split
    · rfl
    · exact (putAll_ignoresPolls _).andThen (fun _ => ih _) s keys

/-- Two numbers of rounds that are both enough for the string loop make no difference. -/
theorem putString_fuel_irrelevant (chars : Word → List Byte) {m n : Nat} {a : Word} {s : State}
    (hm : ∀ f, putString chars m a s ≠ .stuck f) (hn : ∀ f, putString chars n a s ≠ .stuck f) :
    putString chars m a s = putString chars n a s := by
  induction m generalizing n a s with
  | zero => exact absurd rfl (hm _)
  | succ m ih =>
    cases n with
    | zero => exact absurd rfl (hn _)
    | succ n =>
      simp only [putString, strRead_eq, Attempt.andThen_done] at hm hn ⊢
      by_cases hword : s.word a = 0x0000#16
      · rw [if_pos hword, if_pos hword]
      · rw [if_neg hword] at hm hn ⊢
        rw [if_neg hword]
        generalize putAll (chars (s.word a)) s = r at hm hn ⊢
        cases r with
        | done _ t => exact ih hm hn
        | raised | stuck => rfl

/-- The rounds `stringFuel` allows depend on the coming polls, but not how the loop ends in them: the string ends, or a
write fails, within the fewest it ever allows, or neither does. -/
theorem putString_stringFuel_ignoresPolls {chars : Word → List Byte} (hc : ∀ c, chars c ≠ []) (a : Word) :
    IgnoresPolls fun s => putString chars (stringFuel s) a s := by
  intro s keys
  by_cases hends : (∀ b, s.word b ≠ 0x0000#16) ∧ s.outputFails = []
  · obtain ⟨hz, ho⟩ := hends
    simp only [putString_no_zero chars _ a hz ho]
    exact putString_no_zero chars _ a hz ho
  · have hlisted (f : Fault) : putString chars (stringFuel s) a s ≠ .stuck f :=
      fun hf => hends (putString_fuel_enough chars hc hf)
    have hkeys (f : Fault) : putString chars (stringFuel (s.withPolls keys)) a s ≠ .stuck f := fun hf => by
      refine hends (putString_fuel_enough chars hc (s := s.withPolls keys) (a := a) (f := f) ?_)
      rw [putString_ignoresPolls, hf]
      rfl
    simp only [putString_ignoresPolls chars _ a s keys, putString_fuel_irrelevant chars hkeys hlisted]

/-! ## The trap routines and the instructions without `MemRead` -/

theorem setR0_ignoresPolls (v : Word) : IgnoresPolls fun s => .done () (s.setReg .R0 v) :=
  ignoresPolls_done () fun _ _ => rfl

theorem getcRoutine_ignoresPolls : IgnoresPolls getcRoutine := readChar_ignoresPolls.andThen fun _ => setR0_ignoresPolls _

theorem outRoutine_ignoresPolls : IgnoresPolls outRoutine :=
  fun s => (putc_ignoresPolls (loByte (s.reg .R0))).andThen (fun _ => flush_ignoresPolls) s

theorem putsRoutine_ignoresPolls : IgnoresPolls putsRoutine :=
  fun s => (putString_stringFuel_ignoresPolls putsChars_ne_nil (s.reg .R0)).andThen (fun _ => flush_ignoresPolls) s

theorem putspRoutine_ignoresPolls : IgnoresPolls putspRoutine :=
  fun s => (putString_stringFuel_ignoresPolls putspChars_ne_nil (s.reg .R0)).andThen (fun _ => flush_ignoresPolls) s

theorem inRoutine_ignoresPolls : IgnoresPolls inRoutine :=
  (putAll_ignoresPolls config.inPrompt).andThen fun _ =>
  flush_ignoresPolls.andThen fun _ =>
  readChar_ignoresPolls.andThen fun c =>
  (putc_ignoresPolls c).andThen fun _ =>
  flush_ignoresPolls.andThen fun _ => setR0_ignoresPolls _

theorem haltRoutine_ignoresPolls : IgnoresPolls haltRoutine :=
  flush_ignoresPolls.andThen fun _ => ignoresPolls_done () fun _ _ => rfl

theorem trapRoutine_ignoresPolls (v : BitVec 8) : IgnoresPolls (trapRoutine v) := by
  unfold trapRoutine
  split
  · exact getcRoutine_ignoresPolls
  · exact outRoutine_ignoresPolls
  · exact putsRoutine_ignoresPolls
  · exact inRoutine_ignoresPolls
  · exact putspRoutine_ignoresPolls
  · exact haltRoutine_ignoresPolls
  · exact ignoresPolls_done () fun _ _ => rfl

end IgnoresPolls

/-- Settles O49: an instruction without `MemRead` is a plain update, or a trap routine, which ignores the polls. -/
theorem pendingKeysChangeNothingUntilRead : Obligations.PendingKeysChangeNothingUntilRead := by
  intro i s t keys hreads h
  cases i with
  | addReg | addImm | andReg | andImm | not | lea | st | str | jmp | jsr | jsrr | rti | reserved =>
    cases h
    rfl
  | br =>
    rw [exec_br] at h ⊢
    cases h
    rfl
  | ld | ldr | ldi | sti => cases hreads
  | trap v => exact (trapRoutine_ignoresPolls v).finish keys h
  | getc => exact getcRoutine_ignoresPolls.finish keys h
  | out => exact outRoutine_ignoresPolls.finish keys h
  | puts => exact putsRoutine_ignoresPolls.finish keys h
  | inp => exact inRoutine_ignoresPolls.finish keys h
  | putsp => exact putspRoutine_ignoresPolls.finish keys h
  | halt => exact haltRoutine_ignoresPolls.finish keys h

end Sys2Proof.Machine

/-! The settled statements of 70_reset_and_hazards.md: an image's bytes and words (R242, R243), where they land in memory
(R244), a load that fails (R245), and the boot sequence (R240, R246). -/

namespace Sys2Proof.Machine

/-! ## The host's writes -/

theorem hostWrite_of_rst {s : State} (h : s.rst = true) (a v : Word) : hostWrite a v s = s.setWord a v := if_pos h

/-- Once `rst` is released the host cannot write memory (R246). -/
theorem hostWrite_of_released {s : State} (h : s.rst = false) (a v : Word) : hostWrite a v s = s := by simp [hostWrite, h]

/-- `t` is `s` but for its memory, and that is in canonical form if it was so in `s`. -/
structure MemoryOnly (s t : State) : Prop where
  frame : t = { s with mem := t.mem }
  wf : s.mem.wf → t.mem.wf

theorem MemoryOnly.refl (s : State) : MemoryOnly s s := ⟨rfl, id⟩

theorem MemoryOnly.trans {s t u : State} (h : MemoryOnly s t) (k : MemoryOnly t u) : MemoryOnly s u :=
  ⟨by rw [k.frame, h.frame], k.wf ∘ h.wf⟩

theorem MemoryOnly.rst {s t : State} (h : MemoryOnly s t) : t.rst = s.rst := by rw [h.frame]

theorem MemoryOnly.fatal {s t : State} (h : MemoryOnly s t) : t.fatal = s.fatal := by rw [h.frame]

theorem hostWrite_memoryOnly (a v : Word) (s : State) : MemoryOnly s (hostWrite a v s) := by
  unfold hostWrite
  split
  · exact ⟨rfl, fun hwf => State.wf_setWord hwf a v⟩
  · exact .refl s

/-- While `rst` is asserted the first of the words to place is stored. -/
theorem placeWords_cons {s : State} (h : s.rst = true) (a w : Word) (ws : List Word) :
    placeWords a (w :: ws) s = placeWords (a + 1#16) ws (s.setWord a w) := by rw [placeWords, hostWrite_of_rst h]

theorem placeWords_memoryOnly (a : Word) (ws : List Word) (s : State) : MemoryOnly s (placeWords a ws s) := by
  induction ws generalizing a s with
  | nil => exact .refl s
  | cons w ws ih => exact (hostWrite_memoryOnly a w s).trans (ih (a + 1#16) _)

/-! ## Where the words land -/

/-- The address of word `i + 1` counted from `a` is that of word `i` counted from the next address. -/
theorem add_ofNat_succ (a : Word) (i : Nat) : a + BitVec.ofNat 16 (i + 1) = a + 1#16 + BitVec.ofNat 16 i := by
  rw [BitVec.add_assoc, ← BitVec.ofNat_add, Nat.add_comm 1 i]

/-- A word on which no payload word lands stays. -/
theorem word_placeWords_of_ne {a b : Word} {ws : List Word} {s : State} (hrst : s.rst = true)
    (hb : ∀ i < ws.length, b ≠ a + BitVec.ofNat 16 i) : (placeWords a ws s).word b = s.word b := by
  induction ws generalizing a s with
  | nil => rfl
  | cons w ws ih =>
    have hba : b ≠ a := by simpa using hb 0 (by simp)
    have hrest : ∀ i < ws.length, b ≠ a + 1#16 + BitVec.ofNat 16 i := fun i hi => by
      rw [← add_ofNat_succ]
      exact hb (i + 1) (by simpa using hi)
    rw [placeWords_cons hrst, ih (s := s.setWord a w) hrst hrest, State.word_setWord, if_neg hba]

/-- Payload word `i` lands `i` words past the first, unless a later one wraps onto it. -/
theorem word_placeWords_at {a : Word} {ws : List Word} {s : State} (hrst : s.rst = true) {i : Nat} (hi : i < ws.length)
    (hlast : ∀ j < ws.length, i < j → a + BitVec.ofNat 16 j ≠ a + BitVec.ofNat 16 i) :
    (placeWords a ws s).word (a + BitVec.ofNat 16 i) = ws[i] := by
  induction ws generalizing a s i with
  | nil => cases hi
  | cons w ws ih =>
    rw [placeWords_cons hrst]
    cases i with
    | zero =>
      have hrest : ∀ j < ws.length, a + BitVec.ofNat 16 0 ≠ a + 1#16 + BitVec.ofNat 16 j := fun j hj => by
        rw [← add_ofNat_succ]
        exact (hlast (j + 1) (by simpa using hj) (by omega)).symm
      rw [word_placeWords_of_ne (s := s.setWord a w) hrst hrest]
      simp
    | succ i =>
      have hrest : ∀ j < ws.length, i < j → a + 1#16 + BitVec.ofNat 16 j ≠ a + 1#16 + BitVec.ofNat 16 i := by
        intro j hj hij
        rw [← add_ofNat_succ, ← add_ofNat_succ]
        exact hlast (j + 1) (by simpa using hj) (by omega)
      rw [add_ofNat_succ a i, ih (s := s.setWord a w) hrst (by simpa using hi) hrest, List.getElem_cons_succ]

/-! ## An image's bytes -/

/-- The big-endian bytes of a list of words are read as those words (R242). -/
theorem imageWords_flatMap (ws : List Word) : imageWords (ws.flatMap fun w => [hiByte w, loByte w]) = ws := by
  induction ws with
  | nil => rfl
  | cons w ws ih => exact congrArg₂ List.cons (hiByte_append_loByte w) ih

/-- An image's first word is its origin, the rest its payload (R244). -/
theorem loadImage_flatMap (origin : Word) (ws : List Word) (s : State) :
    loadImage (some ((origin :: ws).flatMap fun w => [hiByte w, loByte w])) s = placeWords origin ws s := by
  show placeWords (hiByte origin ++ loByte origin) (imageWords (ws.flatMap fun w => [hiByte w, loByte w])) s = _
  rw [hiByte_append_loByte, imageWords_flatMap]

/-- Settles O57: the image's words are placed from its origin on, one after the other. -/
theorem imagePayloadLandsFromItsOrigin : Obligations.ImagePayloadLandsFromItsOrigin := by
  intro s origin ws hrst
  exact ⟨_, loadImage_flatMap origin ws s, fun i hi hlast => word_placeWords_at hrst hi hlast,
    fun a ha => word_placeWords_of_ne hrst ha, (placeWords_memoryOnly origin ws s).frame⟩

/-- A trailing byte alone makes the word that it makes with a zero byte after it (R243). -/
theorem imageWords_append_zero (bytes : List Byte) (last : Byte) (heven : bytes.length % 2 = 0) :
    imageWords (bytes ++ [last]) = imageWords (bytes ++ [last, 0x00#8]) := by
  fun_induction imageWords bytes with
  | case1 => rfl
  | case2 hi => simp at heven
  | case3 hi lo rest ih => exact congrArg ((hi ++ lo) :: ·) (ih ((Nat.add_mod_right _ 2).symm.trans heven))

theorem imageWords_length (bytes : List Byte) : (imageWords bytes).length = (bytes.length + 1) / 2 := by
  fun_induction imageWords bytes with
  | case1 => rfl
  | case2 => simp
  | case3 hi lo rest ih =>
    simp only [List.length_cons, ih]
    omega

/-- Settles O58: the odd byte is in the payload, since an even number of bytes, not 0, stands before it. -/
theorem oddImageIsPaddedWithAZeroByte : Obligations.OddImageIsPaddedWithAZeroByte := by
  refine ⟨fun s bytes last heven hne => ?_, imageWords_length, fun _ _ _ => rfl⟩
  match bytes with
  | [] => exact absurd rfl hne
  | [_] => simp at heven
  | hi :: lo :: rest =>
    have hrest : rest.length % 2 = 0 := (Nat.add_mod_right _ 2).symm.trans heven
    exact congrArg (placeWords (hi ++ lo) · s) (imageWords_append_zero rest last hrest)

/-! ## Loading images -/

/-- An image with a whole first word changes memory only. -/
theorem loadImage_memoryOnly {bytes : List Byte} (h : 2 ≤ bytes.length) (s : State) :
    MemoryOnly s (loadImage (some bytes) s) := by
  match bytes with
  | [] | [_] => simp at h
  | _ :: _ :: _ => exact placeWords_memoryOnly _ _ s

/-- An image that is missing or without a whole first word is LOAD_FAIL (R245). -/
theorem loadImage_of_unreadable {bad : Option (List Byte)}
    (h : bad = none ∨ ∃ bytes, bad = some bytes ∧ bytes.length < 2) (s : State) : loadImage bad s = s.setFatal .loadFail := by
  obtain rfl | ⟨bytes, rfl, hlen⟩ := h
  · rfl
  · match bytes with
    | [] | [_] => rfl
    | _ :: _ :: _ => simp at hlen

theorem loadImage_rst (image : Option (List Byte)) (s : State) : (loadImage image s).rst = s.rst := by
  unfold loadImage
  split
  · exact (placeWords_memoryOnly _ _ s).rst
  all_goals rfl

theorem loadImages_rst (images : List (Option (List Byte))) (s : State) : (loadImages images s).rst = s.rst := by
  induction images generalizing s with
  | nil => rfl
  | cons image rest ih =>
    unfold loadImages
    split
    · exact loadImage_rst image s
    · exact (ih _).trans (loadImage_rst image s)

/-- Whatever images stand before it, one that fails leaves LOAD_FAIL: an earlier failure is LOAD_FAIL too. -/
theorem loadImages_fatal_of_loadFail {bad : Option (List Byte)} (h : ∀ s, (loadImage bad s).fatal = some .loadFail)
    (before after : List (Option (List Byte))) (s : State) :
    (loadImages (before ++ bad :: after) s).fatal = some .loadFail := by
  induction before generalizing s with
  | nil => simp [loadImages, h]
  | cons image rest ih =>
    rw [List.cons_append, loadImages]
    split
    · assumption
    · exact ih _

theorem loadImages_memoryOnly {images : List (List Byte)} (h : ∀ bytes ∈ images, 2 ≤ bytes.length) {s : State}
    (hs : s.fatal = none) : MemoryOnly s (loadImages (images.map some) s) := by
  induction images generalizing s with
  | nil => exact .refl s
  | cons bytes rest ih =>
    obtain ⟨hbytes, hrest⟩ := List.forall_mem_cons.mp h
    have hload := loadImage_memoryOnly hbytes s
    have hfatal := hload.fatal.trans hs
    rw [List.map_cons, loadImages, if_neg (by simp [hfatal])]
    exact hload.trans (ih hrest hfatal)

/-! ## Boot -/

theorem step_of_rst {s : State} (h : s.rst = true) : step s = .fault .heldInReset := if_pos h

/-- A boot whose load failed ends with `rst` still asserted (R245). -/
theorem boot_of_loadFail {images : List (Option (List Byte))} {s : State}
    (h : (loadImages images (assertReset s)).fatal = some .loadFail) :
    boot images s = loadImages images (assertReset s) := if_pos h

/-- A boot from readable images releases `rst`, with only memory changed since it was asserted (R246). -/
theorem boot_of_readable {images : List (List Byte)} (h : ∀ bytes ∈ images, 2 ≤ bytes.length) (s : State) :
    MemoryOnly { assertReset s with rst := false } (boot (images.map some) s) := by
  have hload := loadImages_memoryOnly h (s := assertReset s) rfl
  have hfatal : (loadImages (images.map some) (assertReset s)).fatal = none := hload.fatal
  rw [boot, releaseReset, if_neg (by simp [hfatal])]
  exact ⟨congrArg (fun t : State => { t with rst := false }) hload.frame, hload.wf⟩

/-- Settles O59: the unreadable image leaves LOAD_FAIL, so `rst` is not released and no step exists. -/
theorem failedLoadKeepsTheCoreInReset : Obligations.FailedLoadKeepsTheCoreInReset := by
  intro s before after bad hbad
  have hload (t : State) : (loadImage bad t).fatal = some .loadFail := by
    rw [loadImage_of_unreadable hbad, State.setFatal_fatal]
  have hfatal := loadImages_fatal_of_loadFail hload before after (assertReset s)
  have hrst := loadImages_rst (before ++ bad :: after) (assertReset s)
  rw [boot_of_loadFail hfatal]
  exact ⟨hfatal, hrst, step_of_rst hrst⟩

/-- Settles O60: only memory differs from the reset state, which meets the invariant with `rst` released. -/
theorem bootReleasesTheResetState : Obligations.BootReleasesTheResetState := by
  intro s images hreadable
  have hboot := boot_of_readable hreadable s
  have hfatal : (boot (images.map some) s).fatal = none := hboot.fatal
  exact ⟨hboot.frame, ⟨hboot.wf Memory.wf_nil, by simp [hfatal]⟩, hostWrite_of_released hboot.rst⟩

end Sys2Proof.Machine

/-! The settled statements of 30_encoding.md section 4: decoding the canonical word of an instruction gives it back, words
written out decode as they stand, and the nineteen rows part the words among them. -/

namespace Sys2Proof.Machine

/-! ## The fields of a canonical word -/

theorem field_encode_opcode (i : Instr) : field (encode i) 12 4 = opcodeBits i.opcode := by
  cases i with
  | br n z p off => exact Laws.EncodeOpcode.br n z p off
  | addReg | andReg => exact encodeOpReg_opcode _ _ _ _
  | addImm | andImm => exact encodeOpImm_opcode _ _ _ _
  | ld | st | ldi | sti | lea => exact encodeOff9_opcode _ _ _
  | ldr | str | not => exact encodeLow6_opcode _ _ _ _
  | jsr off => exact Laws.EncodeOpcode.jsr off
  | jsrr base => exact Laws.EncodeOpcode.jsrr base
  | jmp base => exact Laws.EncodeOpcode.jmp base
  | rti | reserved => rfl
  | trap | getc | out | puts | inp | putsp | halt => exact encodeTrap_opcode _

/-- The canonical word's opcode is read as the instruction's operation. -/
theorem opcodeAt_encode (i : Instr) : opcodeAt (field (encode i) 12 4) = i.opcode := by
  rw [field_encode_opcode, opcodeAt_opcodeBits]

section Layouts

variable (o : Opcode) (r q t : Reg)

theorem fieldDR_encodeOff9 (off : BitVec 9) : fieldDR (encodeOff9 o r off) = r := by
  rw [fieldDR, encodeOff9_reg, regAt_regBits]

theorem fieldDR_encodeLow6 (low : BitVec 6) : fieldDR (encodeLow6 o r q low) = r := by
  rw [fieldDR, encodeLow6_reg, regAt_regBits]

theorem fieldSR1_encodeLow6 (low : BitVec 6) : fieldSR1 (encodeLow6 o r q low) = q := by
  rw [fieldSR1, encodeLow6_reg2, regAt_regBits]

/-- Register mode and immediate mode are the layout of LDR with the mode bit at the top of the low field. -/
theorem encodeOpReg_eq_encodeLow6 : encodeOpReg o r q t = encodeLow6 o r q (0#3 ++ regBits t) := by
  have hlow : encodeOpReg o r q t = opcodeBits o ++ regBits r ++ regBits q ++ 0#3 ++ regBits t :=
    congrArg (· ++ regBits t) BitVec.append_assoc
  exact hlow.trans BitVec.append_assoc

theorem encodeOpImm_eq_encodeLow6 (imm : BitVec 5) : encodeOpImm o r q imm = encodeLow6 o r q (1#1 ++ imm) :=
  BitVec.append_assoc

theorem fieldDR_encodeOpReg : fieldDR (encodeOpReg o r q t) = r := by
  rw [encodeOpReg_eq_encodeLow6, fieldDR_encodeLow6]

theorem fieldSR1_encodeOpReg : fieldSR1 (encodeOpReg o r q t) = q := by
  rw [encodeOpReg_eq_encodeLow6, fieldSR1_encodeLow6]

theorem fieldSR2_encodeOpReg : fieldSR2 (encodeOpReg o r q t) = t :=
  (congrArg regAt BitVec.extractLsb'_append_eq_right).trans (regAt_regBits t)

theorem bit_encodeOpReg : bit (encodeOpReg o r q t) 5 = false := by
  simp only [bit, encodeOpReg, BitVec.getLsbD_append]
  rfl

theorem fieldDR_encodeOpImm (imm : BitVec 5) : fieldDR (encodeOpImm o r q imm) = r := by
  rw [encodeOpImm_eq_encodeLow6, fieldDR_encodeLow6]

theorem fieldSR1_encodeOpImm (imm : BitVec 5) : fieldSR1 (encodeOpImm o r q imm) = q := by
  rw [encodeOpImm_eq_encodeLow6, fieldSR1_encodeLow6]

theorem encodeOpImm_imm (imm : BitVec 5) : field (encodeOpImm o r q imm) 0 5 = imm := BitVec.extractLsb'_append_eq_right

theorem bit_encodeOpImm (imm : BitVec 5) : bit (encodeOpImm o r q imm) 5 = true := by
  simp only [bit, encodeOpImm, BitVec.getLsbD_append]
  rfl

end Layouts

theorem bit_encode_jsr (off : BitVec 11) : bit (encode (.jsr off)) 11 = true := by
  simp only [bit, encode, BitVec.getLsbD_append]
  rfl

theorem encode_jsr_off (off : BitVec 11) : field (encode (.jsr off)) 0 11 = off := BitVec.extractLsb'_append_eq_right

theorem bit_encode_jsrr (base : Reg) : bit (encode (.jsrr base)) 11 = false := by cases base <;> rfl

theorem fieldSR1_encode_jsrr (base : Reg) : fieldSR1 (encode (.jsrr base)) = base := by cases base <;> rfl

theorem fieldSR1_encode_jmp (base : Reg) : fieldSR1 (encode (.jmp base)) = base := by cases base <;> rfl

/-! ## The round trip -/

/-- Settles O52: the canonical word names the form by its opcode and mode bit, and holds each operand in its field; a
vector without a routine is read as a plain TRAP. -/
theorem decodeOfEncodeIsTheInstruction : Obligations.DecodeOfEncodeIsTheInstruction := by
  intro i hwf
  have hop := opcodeAt_encode i
  cases i with
  | br n z p off => exact decode_encode_br n z p off
  | addReg dr sr1 sr2 =>
    rw [decode_addReg hop (bit_encodeOpReg ..), encode, fieldDR_encodeOpReg, fieldSR1_encodeOpReg, fieldSR2_encodeOpReg]
  | andReg dr sr1 sr2 =>
    rw [decode_andReg hop (bit_encodeOpReg ..), encode, fieldDR_encodeOpReg, fieldSR1_encodeOpReg, fieldSR2_encodeOpReg]
  | addImm dr sr1 imm =>
    rw [decode_addImm hop (bit_encodeOpImm ..), encode, fieldDR_encodeOpImm, fieldSR1_encodeOpImm, encodeOpImm_imm]
  | andImm dr sr1 imm =>
    rw [decode_andImm hop (bit_encodeOpImm ..), encode, fieldDR_encodeOpImm, fieldSR1_encodeOpImm, encodeOpImm_imm]
  | ld dr off => rw [decode_ld hop, encode, fieldDR_encodeOff9, encodeOff9_off]
  | st sr off => exact decode_encode_st sr off
  | ldi dr off => rw [decode_ldi hop, encode, fieldDR_encodeOff9, encodeOff9_off]
  | sti sr off => rw [decode_sti hop, encode, fieldDR_encodeOff9, encodeOff9_off]
  | lea dr off => rw [decode_lea hop, encode, fieldDR_encodeOff9, encodeOff9_off]
  | ldr dr base off => rw [decode_ldr hop, encode, fieldDR_encodeLow6, fieldSR1_encodeLow6, encodeLow6_low]
  | str sr base off => rw [decode_str hop, encode, fieldDR_encodeLow6, fieldSR1_encodeLow6, encodeLow6_low]
  | not dr sr => rw [decode_not hop, encode, fieldDR_encodeLow6, fieldSR1_encodeLow6]
  | jsr off => rw [decode_jsr hop (bit_encode_jsr off), encode_jsr_off]
  | jsrr base => rw [decode_jsrr hop (bit_encode_jsrr base), fieldSR1_encode_jsrr]
  | jmp base => rw [decode_jmp hop, fieldSR1_encode_jmp]
  | rti => exact decode_rti hop
  | reserved => exact decode_reserved hop
  | trap v =>
    have hplain : isRoutineVector v = false := by simpa [Instr.wellFormed] using hwf
    rw [decode_trap hop, encode, encodeTrap_vector, trapInstr_of_not_routine hplain]
  | getc | out | puts | inp | putsp | halt => exact (decode_trap hop).trans (congrArg trapInstr (encodeTrap_vector _))

/-- Settles O56: each word's opcode and mode bit pick its form. -/
theorem sampleWordsDecodeAsWritten : Obligations.SampleWordsDecodeAsWritten := by
  unfold Obligations.SampleWordsDecodeAsWritten
  decide

/-! ## The rows of the formats table -/

/-- The nineteen rows, as (mask, match). -/
def formRows : List (Word × Word) :=
  [(0xF000#16, 0x0000#16), (0xF020#16, 0x1000#16), (0xF020#16, 0x1020#16), (0xF000#16, 0x2000#16),
    (0xF000#16, 0x3000#16), (0xF800#16, 0x4800#16), (0xF800#16, 0x4000#16), (0xF020#16, 0x5000#16),
    (0xF020#16, 0x5020#16), (0xF000#16, 0x6000#16), (0xF000#16, 0x7000#16), (0xF000#16, 0x8000#16),
    (0xF000#16, 0x9000#16), (0xF000#16, 0xA000#16), (0xF000#16, 0xB000#16), (0xF000#16, 0xC000#16),
    (0xF000#16, 0xD000#16), (0xF000#16, 0xE000#16), (0xF000#16, 0xF000#16)]

/-- The word with this opcode and these mode bits at 11 and 5, and zeros elsewhere: all that a row can tell apart. -/
def rowBits (op : BitVec 4) (b11 b5 : Bool) : Word := op ++ BitVec.ofBool b11 ++ 0#5 ++ BitVec.ofBool b5 ++ 0#5

/-- Words that agree under a mask agree under any part of it. -/
theorem agrees_of_subMask {w w' m p : Word} (h : w &&& m = w' &&& m) (hp : m &&& p = p) : w &&& p = w' &&& p := by
  rw [← hp, ← BitVec.and_assoc, ← BitVec.and_assoc, h]

/-- A mask within the opcode and the mode bits sees nothing else of a word. -/
theorem and_eq_rowBits_and {m : Word} (hm : 0xF820#16 &&& m = m) (w : Word) :
    w &&& m = rowBits (field w 12 4) (bit w 11) (bit w 5) &&& m := by
  refine agrees_of_subMask ?_ hm
  have hw : field w 12 4 ++ BitVec.ofBool (bit w 11) ++ field w 6 5 ++ BitVec.ofBool (bit w 5) ++ field w 0 5 = w := by
    simp only [ofBool_bit, field_append]
    exact field_full w
  conv_lhs => rw [← hw]
  exact append_and_congr (p := 0x1F#5 ++ 0#5 ++ 1#1) (q := 0#5)
    (append_and_congr (append_and_congr rfl (and_zero_congr _ _)) rfl) (and_zero_congr _ _)

section ModeBits

variable {w : Word} {o : Opcode} (hop : opcodeAt (field w 12 4) = o) {b : Bool}
include hop

theorem and_mode5_row (h5 : bit w 5 = b) : w &&& 0xF020#16 = rowBits (opcodeBits o) false b &&& 0xF020#16 := by
  rw [and_eq_rowBits_and rfl, ← opcodeBits_of_opcodeAt hop, h5]
  exact append_and_congr (p := 0xF#4 ++ 0#1 ++ 0#5 ++ 1#1) (q := 0#5)
    (append_and_congr (append_and_congr (append_and_congr rfl (and_zero_congr _ _)) rfl) rfl) rfl

theorem and_mode11_row (h11 : bit w 11 = b) : w &&& 0xF800#16 = rowBits (opcodeBits o) b false &&& 0xF800#16 := by
  rw [and_eq_rowBits_and rfl, ← opcodeBits_of_opcodeAt hop, h11]
  exact append_and_congr (p := 0x1F#5 ++ 0#5 ++ 0#1) (q := 0#5) (append_and_congr rfl (and_zero_congr _ _)) rfl

end ModeBits

theorem subMask_of_mem_formRows : ∀ r ∈ formRows, 0xF820#16 &&& r.1 = r.1 := by simp [formRows]

theorem rowBits_matches_one_row :
    ∀ (op : BitVec 4) (b11 b5 : Bool), formRows.countP (fun r => rowBits op b11 b5 &&& r.1 = r.2) = 1 := by decide

theorem matches_one_row (w : Word) : formRows.countP (fun r => w &&& r.1 = r.2) = 1 := by
  rw [← rowBits_matches_one_row (field w 12 4) (bit w 11) (bit w 5)]
  refine List.countP_congr fun r hr => ?_
  rw [and_eq_rowBits_and (subMask_of_mem_formRows r hr) w]

/-- What a TRAP word's form fixes lies in the opcode and the vector, and the canonical TRAP word has it. -/
theorem encodeTrap_matches_pattern (v : BitVec 8) :
    0xF0FF#16 &&& (trapInstr v).pattern.1 = (trapInstr v).pattern.1 ∧
      encodeTrap v &&& (trapInstr v).pattern.1 = (trapInstr v).pattern.2 := by
  revert v
  decide

theorem matches_pattern_of_decode (w : Word) : w &&& (decode w).pattern.1 = (decode w).pattern.2 := by
  cases hop : opcodeAt (field w 12 4) with
  | br | ld | st | ldr | str | rti | not | ldi | sti | jmp | reserved | lea =>
    simp only [decode_br, decode_ld, decode_st, decode_ldr, decode_str, decode_rti, decode_not, decode_ldi, decode_sti,
      decode_jmp, decode_reserved, decode_lea, hop, Instr.pattern]
    exact (opcodeOnly_fields hop).symm
  | add | and =>
    cases h5 : bit w 5 with
    | true =>
      simp only [decode_addImm, decode_andImm, hop, h5, Instr.pattern]
      exact and_mode5_row hop h5
    | false =>
      simp only [decode_addReg, decode_andReg, hop, h5, Instr.pattern]
      exact and_mode5_row hop h5
  | jsr =>
    cases h11 : bit w 11 with
    | true =>
      rw [decode_jsr hop h11]
      exact and_mode11_row hop h11
    | false =>
      rw [decode_jsrr hop h11]
      exact and_mode11_row hop h11
  | trap =>
    obtain ⟨hmask, hmatch⟩ := encodeTrap_matches_pattern (field w 0 8)
    rw [decode_trap hop, ← agrees_of_subMask (encodeTrap_fields hop) hmask, hmatch]

/-- Settles O55: the rows see the opcode and the mode bits, and those decide the one row; the decoder reads the same bits. -/
theorem everyWordMatchesExactlyOneForm : Obligations.EveryWordMatchesExactlyOneForm :=
  fun w => ⟨matches_one_row w, matches_pattern_of_decode w⟩

end Sys2Proof.Machine

/-! The settled statements of the state, its reset, the keyboard and the fatal stop: the registers (10_state.md R30), reset
(R43), the keyboard-status read and fetch (20_memory.md R55, R58), the one canonical memory (R50), and that halted and fatal
are permanent (00_scope.md R14, 60_exceptions.md R212). -/

namespace Sys2Proof.Machine

/-! ## Reset and the registers -/

/-- Settles O4: the fields of `State.reset`, with every register and every word zero. -/
theorem resetStateIsAsSpecified : Obligations.ResetStateIsAsSpecified := by
  have hregs (r : Reg) : State.reset.reg r = 0x0000#16 := by cases r <;> rfl
  exact ⟨hregs, rfl, rfl, rfl, rfl, rfl, State.word_reset, ⟨rfl, rfl, rfl⟩⟩

/-- Settles O51: the empty memory is canonical, and reset sets no code. -/
theorem resetMeetsTheInvariant : Obligations.ResetMeetsTheInvariant := ⟨Memory.wf_nil, nofun⟩

/-- Settles O10: the register file's read-after-write law, and the field's table. -/
theorem registersAreEightIndependentCells : Obligations.RegistersAreEightIndependentCells :=
  ⟨by decide, fun s r q v => ⟨State.reg_setReg s r q v, rfl, by cases r <;> rfl⟩⟩

/-! ## Permanent stops -/

theorem step_of_fatal {s : State} (hrst : s.rst = false) {c : FatalCode} (hcode : s.fatal = some c) :
    step s = .fault (.stoppedByFatal c) := by simp [step, hrst, hcode]

theorem step_of_halted {s : State} (hrst : s.rst = false) (hcode : s.fatal = none) (hrun : s.running = false) :
    step s = .fault .halted := by simp [step, hrst, hcode, hrun]

theorem ReadFrame.rst {s t : State} (h : ReadFrame s t) : t.rst = s.rst := by rw [h.eq]

theorem Effect.rst {i : Instr} {s t : State} (h : Effect i s t) : t.rst = s.rst := by
  cases h with
  | result _ _ _ _ read => exact read.rst
  | store _ _ _ read => exact read.rst
  | pollFail _ read => exact read.rst
  | transfer => rfl
  | trap _ frame => exact frame.rst

/-- No step drives `rst`: it is the host's port (00_scope.md R17). -/
theorem step_rst {s t : State} (h : step s = .next t) : t.rst = s.rst := by
  rcases step_effect h with ⟨_, hread⟩ | ⟨_, _, _, hread, heffect⟩
  · exact hread.rst
  · exact heffect.rst.trans hread.rst

/-- Settles O5: the step began with `rst` released and kept it so, and then a code or Running false stops the next one. -/
theorem fatalAndHaltedStatesTakeNoFurtherStep : Obligations.FatalAndHaltedStatesTakeNoFurtherStep := by
  intro s t h
  obtain ⟨hreleased, _⟩ := mayStep_of_next h
  have hrst : t.rst = false := (step_rst h).trans hreleased
  exact ⟨fun _ => step_of_fatal hrst, step_of_halted hrst⟩

/-- Settles O6: `setFatal` writes the status alone, and a status with a code leaves no step. -/
theorem raisingAFatalKeepsAllElseAndStopsTheCore : Obligations.RaisingAFatalKeepsAllElseAndStopsTheCore :=
  fun _ _ => ⟨rfl, step_of_not_mayStep fun ⟨_, hnone, _⟩ => nomatch hnone⟩

/-! ## The keyboard-status word -/

section Refresh

variable {s : State} {rest : List PollAnswer}

theorem memRead_kbsr_key {b : Byte} (h : s.polls = .key b :: rest) :
    memRead config.kbsrAddr s = .done 0x8000#16
      (({ s with polls := rest }.setWord config.kbsrAddr 0x8000#16).setWord config.kbdrAddr (b.setWidth 16)) := by
  simp [memRead_kbsr, refreshKeyboard, consPoll, h, kbsr_ne_kbdr]

theorem memRead_kbsr_noKey (h : s.polls = .noKey :: rest) :
    memRead config.kbsrAddr s = .done 0x0000#16 ({ s with polls := rest }.setWord config.kbsrAddr 0x0000#16) := by
  simp [memRead_kbsr, refreshKeyboard, consPoll, h]

theorem memRead_kbsr_fail (h : s.polls = .fail :: rest) :
    memRead config.kbsrAddr s = .raised { s with polls := rest, fatal := some .kbdPollFail } := by
  simp only [memRead_kbsr, refreshKeyboard, consPoll, h]
  rfl

end Refresh

/-- Settles O7: the three answers of a poll, and the words their writes leave. -/
theorem readOfKeyboardStatusPolls : Obligations.ReadOfKeyboardStatusPolls := by
  intro s rest
  refine ⟨fun b hkey => ⟨_, memRead_kbsr_key hkey, fun a => ?_, rfl⟩,
    fun hnone => ⟨_, memRead_kbsr_noKey hnone, fun a => State.word_setWord _ _ _ _, rfl⟩, memRead_kbsr_fail⟩
  rw [State.word_setWord, State.word_setWord]
  by_cases ha : a = config.kbsrAddr
  · rw [ha, if_neg kbsr_ne_kbdr, if_pos rfl, if_pos rfl]
  · rw [if_neg ha, if_neg ha]
    rfl

/-- A fetch from KBSR_ADDR of a word that changes nothing is its read and the increment of pc. -/
theorem step_of_kbsr_noOp {s t : State} {w : Word} (hmay : s.mayStep) (hpc : s.pc = config.kbsrAddr)
    (hread : memRead config.kbsrAddr s = .done w t) (hnoOp : ∀ u, exec (decode w) u = .next u) :
    step s = .next (t.setPc (s.pc + 1#16)) := by
  obtain ⟨hstep, _⟩ := stepFetchesIncrementsAndExecutes s
  obtain ⟨_, hexec⟩ := hstep hmay w t (hpc ▸ hread)
  exact hexec.trans (hnoOp _)

/-- 0x0000 is a branch that asks for no flag (30_encoding.md R92). -/
theorem exec_decode_zero (s : State) : exec (decode 0x0000#16) s = .next s :=
  exec_br_not_taken (n := false) (z := false) (p := false) (by cases s.cond <;> rfl) 0#9

/-- Settles O3: the fetch is the read of R55, and the two words it can answer are no-ops. -/
theorem fetchFromKeyboardStatusIsANoOpOrFatal : Obligations.FetchFromKeyboardStatusIsANoOpOrFatal := by
  intro s rest hmay hpc
  obtain ⟨hkey, hnone, hfail⟩ := readOfKeyboardStatusPolls s rest
  refine ⟨fun b hpolls => ?_, fun hpolls => ?_, fun hpolls => ?_⟩
  · obtain ⟨t, hread, hwords, hframe⟩ := hkey b hpolls
    exact ⟨_, step_of_kbsr_noOp hmay hpc hread fun _ => rfl, hwords, congrArg (State.setPc · (s.pc + 1#16)) hframe⟩
  · obtain ⟨t, hread, hwords, hframe⟩ := hnone hpolls
    exact ⟨_, step_of_kbsr_noOp hmay hpc hread exec_decode_zero, hwords, congrArg (State.setPc · (s.pc + 1#16)) hframe⟩
  · obtain ⟨_, hraised, _⟩ := stepFetchesIncrementsAndExecutes s
    exact (hraised hmay _ (hpc ▸ hfail hpolls)).2

/-! ## One canonical memory for what the words hold -/

/-- A cell that reads as something else than an unlisted one is listed. -/
theorem Memory.mem_of_readByte {m : Memory} {k : Nat} (h : m.readByte k ≠ Memory.unlistedByte) : (k, m.readByte k) ∈ m := by
  induction m with
  | nil => exact absurd rfl h
  | cons c m ih =>
    by_cases hk : c.1 = k
    · simp [Memory.readByte, ← hk]
    · rw [Memory.readByte, if_neg hk] at h ⊢
      exact List.mem_cons_of_mem c (ih h)

/-- In a canonical memory a listed cell reads as it is listed. -/
theorem Memory.readByte_of_mem {m : Memory} (hm : m.wf) {c : Host.Cell} (hc : c ∈ m) : m.readByte c.1 = c.2 := by
  induction m with
  | nil => cases hc
  | cons d m ih =>
    obtain ⟨_, hlt, hwf⟩ := Memory.wf_cons.mp hm
    rcases List.mem_cons.mp hc with rfl | hc
    · exact if_pos rfl
    · exact (if_neg (hlt c hc).ne).trans (ih hwf hc)

theorem Memory.hiByte_readWord (m : Memory) (a : Word) : hiByte (m.readWord a) = m.readByte (hiCell a) :=
  BitVec.extractLsb'_append_eq_left

theorem Memory.loByte_readWord (m : Memory) (a : Word) : loByte (m.readWord a) = m.readByte (loCell a) :=
  BitVec.extractLsb'_append_eq_right

/-- Every cell of the memory is one of the two halves of a word. -/
theorem exists_word_of_cell {k : Nat} (hk : k < 2 * memWords) : ∃ a : Word, k = hiCell a ∨ k = loCell a := by
  have haddr : (BitVec.ofNat 16 (k / 2)).toNat = k / 2 := by
    unfold memWords at hk
    rw [BitVec.toNat_ofNat]
    omega
  refine ⟨BitVec.ofNat 16 (k / 2), ?_⟩
  unfold hiCell loCell
  omega

/-- Memories with equal words have equal cells. -/
theorem Memory.readByte_eq_of_readWord_eq {m n : Memory} (h : ∀ a, m.readWord a = n.readWord a) {k : Nat}
    (hk : k < 2 * memWords) : m.readByte k = n.readByte k := by
  obtain ⟨a, rfl | rfl⟩ := exists_word_of_cell hk
  · rw [← Memory.hiByte_readWord, h, Memory.hiByte_readWord]
  · rw [← Memory.loByte_readWord, h, Memory.loByte_readWord]

/-- Two canonical memories that hold the same words list the same cells. -/
theorem Memory.subset_of_readWord_eq {m n : Memory} (hm : m.wf) (h : ∀ a, m.readWord a = n.readWord a) : m ⊆ n := by
  intro c hc
  obtain ⟨hlt, hlisted⟩ := hm.2 c hc
  have hread : n.readByte c.1 = c.2 := (Memory.readByte_eq_of_readWord_eq h hlt).symm.trans (Memory.readByte_of_mem hm hc)
  have hmem : (c.1, n.readByte c.1) ∈ n := Memory.mem_of_readByte (hread ▸ hlisted)
  rwa [hread] at hmem

theorem Memory.nodup_of_wf {m : Memory} (h : m.wf) : m.Nodup := h.1.imp fun hlt heq => hlt.ne (congrArg Prod.fst heq)

/-- Settles O11: the two list the same cells, and both in rising order. -/
theorem canonicalMemoryIsUnique : Obligations.CanonicalMemoryIsUnique := by
  intro m m' hm hm' h
  have hcells (c : Host.Cell) : c ∈ m ↔ c ∈ m' :=
    ⟨(Memory.subset_of_readWord_eq hm h ·), (Memory.subset_of_readWord_eq hm' (fun a => (h a).symm) ·)⟩
  have hperm := (List.perm_ext_iff_of_nodup (Memory.nodup_of_wf hm) (Memory.nodup_of_wf hm')).mpr hcells
  exact hperm.eq_of_pairwise (fun _ _ _ _ hlt hgt => absurd hgt hlt.asymm) hm.1 hm'.1

end Sys2Proof.Machine
